-- ==== Sys2Proof/Word.lean ====
section
/-! DEFINITION. The machine's words: bytes, 16-bit fields and registers, and text (00_scope.md R13). -/

namespace Sys2Proof

/-- A byte, `u8` (R13). -/
abbrev Byte := BitVec 8

/-- A two-byte field of a request (`M`, `OFF`, `IDX`, R87) and a two-byte register (R25, R26). -/
abbrev Half := BitVec 16

/-- A sequence of characters (R163): an Ascii value, a hex string, an entry's name (R30). -/
abbrev Text := List Char

end Sys2Proof
end

