-- ==== Sys2Proof/Config.lean ====
section
/-! DEFINITION. What is fixed for one machine (00_scope.md R10, R11): the constants the spec gives, the
types of its OPEN parameters, and the free values, which are opaque constants without a body. -/

namespace Sys2Proof

/-! ### The schema's types (10_state.md R30) -/

/-- How the bytes of a field are read (R30, R84 `REPR`). -/
inductive Representation where
  | unsigned
  | signed
  | hex
  | ascii
deriving DecidableEq, Repr

/-- The kind of a field, with the descriptor field that is present iff the kind has it (R30, R162):
`bit_index` for Bit (0 = least significant), `length` for Multibyte. -/
inductive FieldKind where
  | bit (index : BitVec 3)
  | byte
  | multibyte (length : Byte)
deriving DecidableEq, Repr

/-- One schema entry (R30). `validRange` and `readonly` are carried and read by no operation (R177). That
the ends of `validRange` are integers is a DESIGN CHOICE: R30 gives them no type (log 18). -/
structure SchemaEntry where
  name : Text
  offset : Half
  kind : FieldKind
  representation : Representation
  validRange : Option (Int × Int)
  readonly : Bool
deriving DecidableEq, Repr

/-- The values of the OPEN parameter `ASCII_HIGH` (42_calibration_decoder.md R175). -/
inductive AsciiHigh where
  | absent
  | latin1
  | draw
deriving DecidableEq, Repr

/-- The parameters of one block instance (R11, R30, R35). They stand in the state so that a statement
about every state is one about every choice of them; no step writes them (R31). -/
structure Params where
  /-- the link this instance stands on (R35, R212) -/
  linkId : Nat
  /-- the schema ROM `SCHEMA` (R30) -/
  schema : List SchemaEntry
  /-- `COMMANDS` (R9); the block does not check membership (R74) -/
  commands : List Byte
  /-- `CMD_CONFIG_WRITE` (R11, R133) -/
  cmdConfigWrite : Byte
  /-- `ASCII_HIGH` (R175) -/
  asciiHigh : AsciiHigh
deriving DecidableEq, Repr

/-! ### The link oracle's draws (20_memory.md R55-R57) -/

/-- Everything the link decides about one sequencer step. `arrived`: the bytes appended to LINK.RX since
the last step and during this one (R58). `ok`: whether the primitive succeeds. `count`: how many bytes a
read returns at most (R56), or how many bytes a failing write transmitted. `rxAfter`: LINK.RX after a
failing flush or read, which the spec does not state (log 11). -/
structure LinkDraw where
  arrived : List Byte
  ok : Bool
  count : Nat
  rxAfter : List Byte
deriving DecidableEq, Repr, Inhabited

namespace Config

/-! ### Constants the source fixes (R10) and the encoding fixes (R11) -/

/-- `RX_LEN_CEIL`: the ceiling of a received frame's payload length (R10). -/
abbrev rxLenCeil : Nat := 16
/-- `BUILD_PAYLOAD_MAX` (R10). -/
abbrev buildPayloadMax : Nat := 255
/-- `MIN_FRAME` (R10). -/
abbrev minFrame : Nat := 3
/-- `HDR_LEN` (R10). -/
abbrev hdrLen : Nat := 2
/-- `CONFIG_WRITE_LEN` (R10). -/
abbrev configWriteLen : Nat := 13
/-- `BUF_MAX` (R11). -/
abbrev bufMax : Nat := 65535
/-- The most entries a schema may have (R162). -/
abbrev schemaMax : Nat := 65535

/-! ### Free values -/

/-- What the schema ROM is loaded with before the check of R162 (log 1). -/
opaque rawSchema : List SchemaEntry

/-- `COMMANDS` (R9, log 2). -/
opaque commands : List Byte

/-- `CMD_CONFIG_WRITE` (R11, log 2). -/
opaque cmdConfigWrite : Byte

/-- `N_LINKS` (R11, R212, log 4). -/
opaque nLinks : Nat

/-- LINK.RX of a link when its instance starts: unspecified (R231, log 5). -/
opaque launchRx (link : Nat) : List Byte

/-- Whether a link is open and configured when its instance starts (R235, log 6). -/
opaque launchReady (link : Nat) : Bool

/-- The link oracle (R56): the draw with the given number, on the given link (log 9). -/
opaque linkDraw (link : Nat) (number : Nat) : LinkDraw

/-- The text a Multibyte Ascii field with high bytes decodes to under `ASCII_HIGH = draw` (R175): a free
function of the decode's operands, buffer, offset and length (log 12). -/
opaque asciiDraw (buf : List Byte) (offset length : Nat) : Text

end Config

end Sys2Proof
end

