-- ==== Sys2Proof/Syntax.lean ====
section
/-! DEFINITION. The operations of the block as typed requests: one constructor per row of
spec/opcode_table.json (30_encoding.md R81, R82, R86), and the pseudo-instructions of R93. -/

namespace Sys2Proof

/-- The 17 operations. An optional operand of the encoding is an `Option` here: VALIDATE's expected
command (R83, flag `E`), DECODE.ALL's buffer (R85, flag `P`). -/
inductive Instr where
  /-- BUILD (R103) -/
  | build (cmd : Byte) (payload : List Byte)
  /-- VALIDATE (R107) -/
  | validate (expected : Option Byte) (bs : List Byte)
  /-- PARSE (R110) -/
  | parse (bs : List Byte)
  /-- DECODE.BIT (R165); `repr` is encoded and ignored (R166) -/
  | decodeBit (repr : Representation) (bit : BitVec 3) (off : Half) (buf : List Byte)
  /-- DECODE.BYTE.U (R167) -/
  | decodeByteU (off : Half) (buf : List Byte)
  /-- DECODE.BYTE.S (R168) -/
  | decodeByteS (off : Half) (buf : List Byte)
  /-- DECODE.BYTE.H (R169) -/
  | decodeByteH (off : Half) (buf : List Byte)
  /-- DECODE.BYTE.A (R170) -/
  | decodeByteA (off : Half) (buf : List Byte)
  /-- DECODE.MB.U (R171) -/
  | decodeMbU (off : Half) (len : Byte) (buf : List Byte)
  /-- DECODE.MB.S (R172) -/
  | decodeMbS (off : Half) (len : Byte) (buf : List Byte)
  /-- DECODE.MB.H (R173) -/
  | decodeMbH (off : Half) (len : Byte) (buf : List Byte)
  /-- DECODE.MB.A (R174) -/
  | decodeMbA (off : Half) (len : Byte) (buf : List Byte)
  /-- DECODE.NAMED (R178) -/
  | decodeNamed (idx : Half) (buf : List Byte)
  /-- DECODE.ALL (R179) -/
  | decodeAll (buf : Option (List Byte))
  /-- EXECUTE (R130) -/
  | execute (cmd : Byte) (ret : Byte) (payload : List Byte)
  /-- ABORT (R144) -/
  | abort
  /-- STATUS (R145) -/
  | status
deriving DecidableEq, Repr

/-- The pseudo-instructions (R93). -/
inductive Pseudo where
  /-- `DECODE name, [BUF]` -/
  | decodeName (name : Text) (buf : List Byte)
  /-- `POLL cmd, ret` -/
  | poll (cmd ret : Byte)
  /-- `CHECK [BS], exp` -/
  | check (bs : List Byte) (expected : Byte)
deriving DecidableEq, Repr

end Sys2Proof
end

