-- ==== Sys2Proof/WellFormed.lean ====
section
/-! DEFINITION. Well-formedness of an instruction (what the request encoding can carry, 30_encoding.md
R84, R90, R91) and of a schema (42_calibration_decoder.md R161, R162). -/

namespace Sys2Proof

/-- The payload fits the 8-bit `N` field (R91). -/
def payloadFits (p : List Byte) : Bool := decide (p.length ≤ Config.buildPayloadMax)

/-- The buffer operand fits the 16-bit `M` field (R91). -/
def bufferFits (b : List Byte) : Bool := decide (b.length ≤ Config.bufMax)

/-- `LEN` of a Multibyte descriptor is 1..255 (R84, R162). -/
def lenLegal (len : Byte) : Bool := decide (len ≠ 0)

/-- A well-formed instruction: it has an encoding (R91) and its descriptor is legal (R84, R162). -/
def Instr.wf : Instr → Bool
  | .build _ p => payloadFits p
  | .validate _ bs => bufferFits bs
  | .parse bs => bufferFits bs
  | .decodeBit _ _ _ buf => bufferFits buf
  | .decodeByteU _ buf => bufferFits buf
  | .decodeByteS _ buf => bufferFits buf
  | .decodeByteH _ buf => bufferFits buf
  | .decodeByteA _ buf => bufferFits buf
  | .decodeMbU _ len buf => lenLegal len && bufferFits buf
  | .decodeMbS _ len buf => lenLegal len && bufferFits buf
  | .decodeMbH _ len buf => lenLegal len && bufferFits buf
  | .decodeMbA _ len buf => lenLegal len && bufferFits buf
  | .decodeNamed _ buf => bufferFits buf
  | .decodeAll none => true
  | .decodeAll (some buf) => bufferFits buf
  | .execute _ _ p => payloadFits p
  | .abort => true
  | .status => true

/-- A legal entry (R162); the presence of `bit_index` and `length` is in the type. -/
def SchemaEntry.wf (e : SchemaEntry) : Bool :=
  match e.kind with
  | .bit _ => true
  | .byte => true
  | .multibyte len => lenLegal len

/-- A legal schema (R162): legal entries, unique names, at most 65535 entries. -/
def schemaWf (l : List SchemaEntry) : Bool :=
  l.all SchemaEntry.wf && decide (l.map SchemaEntry.name).Nodup && decide (l.length ≤ Config.schemaMax)

/-- The schema has a Bit entry of this name, offset and bit index. -/
def hasBitEntry (l : List SchemaEntry) (name : Text) (offset : Half) (index : BitVec 3) : Bool :=
  l.any fun e => decide (e.name = name) && decide (e.offset = offset) && decide (e.kind = .bit index)

/-- The content every `SCHEMA` must agree with (R161): three Bit entries at 0x15, and a Multibyte Ascii
entry of length 8 whose name and offset are not given. -/
def schemaKnown (l : List SchemaEntry) : Bool :=
  hasBitEntry l "foot_switch".toList 0x15 0 && hasBitEntry l "sw_level".toList 0x15 1 &&
  hasBitEntry l "change_dir".toList 0x15 7 &&
  l.any fun e => decide (e.kind = .multibyte 8) && decide (e.representation = .ascii)

/-- A schema the model takes (R161, R162). -/
def schemaLegal (l : List SchemaEntry) : Bool := schemaWf l && schemaKnown l

namespace Config

/-- The legal schema that stands in where the check refuses `rawSchema` (R162, log 1). -/
def fallbackSchema : List SchemaEntry :=
  [ ⟨"foot_switch".toList, 0x15, .bit 0, .unsigned, none, false⟩,
    ⟨"sw_level".toList, 0x15, .bit 1, .unsigned, none, false⟩,
    ⟨"change_dir".toList, 0x15, .bit 7, .unsigned, none, false⟩,
    ⟨"ascii_field".toList, 0x00, .multibyte 8, .ascii, none, false⟩ ]

/-- `SCHEMA` at start (R30, R235 item 1): any legal schema, and nothing more can be proved of it (log 1). -/
def schema : List SchemaEntry := if schemaLegal rawSchema then rawSchema else fallbackSchema

end Config

end Sys2Proof
end

