-- ==== Sys2Proof/Decode.lean ====
section
/-! DEFINITION. The request decoder, total on any bytes (30_encoding.md R80-R90), and after it the encoder
from the same tables, the pseudo-instructions (R93) and the reading of an opcode table word. -/

namespace Sys2Proof

/-- What a request is sorted into (R90). -/
inductive Decoded where
  /-- a legal operation -/
  | instr (i : Instr)
  /-- ILLEGAL_OPERATION: fewer than 2 bytes, or an unassigned OPSEL -/
  | illegal
  /-- MALFORMED_REQUEST: a wrong length, or a reserved or inconsistent field -/
  | malformed
deriving DecidableEq, Repr

/-! ### Field assembly (R87) -/

/-- A two-byte field, big-endian. -/
def be16 (hi lo : Byte) : Half := hi ++ lo

/-- `KIND` = `KR[7:6]` (R84). -/
def krKind (kr : Byte) : BitVec 2 := kr.extractLsb' 6 2

/-- `REPR` = `KR[5:4]` (R84). -/
def krReprBits (kr : Byte) : BitVec 2 := kr.extractLsb' 4 2

/-- Reserved bit 3 of `KR` (R84). -/
def krReserved (kr : Byte) : Bool := kr.getLsbD 3

/-- `BIT` = `KR[2:0]` (R84). -/
def krBit (kr : Byte) : BitVec 3 := kr.extractLsb' 0 3

/-- The codes of `REPR` (R84): 00 Unsigned, 01 Signed, 10 Hex, 11 Ascii. -/
def reprOfBits (c : BitVec 2) : Representation :=
  if c = 0 then .unsigned else if c = 1 then .signed else if c = 2 then .hex else .ascii

/-- A legal operation where the condition holds, MALFORMED_REQUEST otherwise (R90 items 2 and 3). -/
def legalIf (c : Bool) (i : Instr) : Decoded := if c then .instr i else .malformed

/-! ### One decoder per OPSEL (R82) -/

/-- `01 00 CMD N P`. -/
def decodeBuild (mod : Byte) : List Byte → Decoded
  | cmd :: n :: p => legalIf (mod = 0 && p.length = n.toNat) (.build cmd p)
  | _ => .malformed

/-- `02 FLG EXP M BS`, R83: bits 7:1 of FLG are 0; `EXP` is 0 when `E = 0`. -/
def decodeValidate (flg : Byte) : List Byte → Decoded
  | exp :: m1 :: m0 :: bs =>
    if flg = 0 then legalIf (exp = 0 && bs.length = (be16 m1 m0).toNat) (.validate none bs)
    else legalIf (flg = 1 && bs.length = (be16 m1 m0).toNat) (.validate (some exp) bs)
  | _ => .malformed

/-- `03 00 M BS`. -/
def decodeParse (mod : Byte) : List Byte → Decoded
  | m1 :: m0 :: bs => legalIf (mod = 0 && bs.length = (be16 m1 m0).toNat) (.parse bs)
  | _ => .malformed

/-- A Byte variant by `REPR` (R86). -/
def byteVariant (r : Representation) (off : Half) (buf : List Byte) : Instr :=
  match r with
  | .unsigned => .decodeByteU off buf
  | .signed => .decodeByteS off buf
  | .hex => .decodeByteH off buf
  | .ascii => .decodeByteA off buf

/-- A Multibyte variant by `REPR` (R86). -/
def mbVariant (r : Representation) (off : Half) (len : Byte) (buf : List Byte) : Instr :=
  match r with
  | .unsigned => .decodeMbU off len buf
  | .signed => .decodeMbS off len buf
  | .hex => .decodeMbH off len buf
  | .ascii => .decodeMbA off len buf

/-- The variant an entry descriptor selects (R84, R86, R90): `LEN = 0` and any `BIT` for Bit, `LEN = 0`
and `BIT = 0` for Byte, `LEN ≠ 0` and `BIT = 0` for Multibyte; `KIND = 11` is reserved. -/
def decodeVariant (kr : Byte) (off : Half) (len : Byte) (buf : List Byte) : Decoded :=
  if krKind kr = 0 then legalIf (len = 0) (.decodeBit (reprOfBits (krReprBits kr)) (krBit kr) off buf)
  else if krKind kr = 1 then
    legalIf (krBit kr = 0 && len = 0) (byteVariant (reprOfBits (krReprBits kr)) off buf)
  else if krKind kr = 2 then
    legalIf (krBit kr = 0 && lenLegal len) (mbVariant (reprOfBits (krReprBits kr)) off len buf)
  else .malformed

/-- `10 KR OFF LEN M BUF`. -/
def decodeFamily (kr : Byte) : List Byte → Decoded
  | o1 :: o0 :: len :: m1 :: m0 :: buf =>
    if !krReserved kr && buf.length = (be16 m1 m0).toNat then decodeVariant kr (be16 o1 o0) len buf
    else .malformed
  | _ => .malformed

/-- `11 00 IDX M BUF`. -/
def decodeNamedReq (mod : Byte) : List Byte → Decoded
  | i1 :: i0 :: m1 :: m0 :: buf =>
    legalIf (mod = 0 && buf.length = (be16 m1 m0).toNat) (.decodeNamed (be16 i1 i0) buf)
  | _ => .malformed

/-- `12 FLG M BUF`, R85: bits 7:1 of FLG are 0; `M` is 0 when `P = 0`. -/
def decodeAllReq (flg : Byte) : List Byte → Decoded
  | m1 :: m0 :: buf =>
    if flg = 0 then legalIf (be16 m1 m0 = 0 && buf.isEmpty) (.decodeAll none)
    else legalIf (flg = 1 && buf.length = (be16 m1 m0).toNat) (.decodeAll (some buf))
  | _ => .malformed

/-- `20 00 CMD RET N P`. -/
def decodeExecute (mod : Byte) : List Byte → Decoded
  | cmd :: ret :: n :: p => legalIf (mod = 0 && p.length = n.toNat) (.execute cmd ret p)
  | _ => .malformed

/-- `2F 00` and `30 00`: nothing follows the head word. -/
def decodeBare (i : Instr) (mod : Byte) (ops : List Byte) : Decoded :=
  legalIf (mod = 0 && ops.isEmpty) i

/-- The request decoder (R81, R90). -/
def decode : List Byte → Decoded
  | opsel :: mod :: ops =>
    if opsel = 0x01 then decodeBuild mod ops
    else if opsel = 0x02 then decodeValidate mod ops
    else if opsel = 0x03 then decodeParse mod ops
    else if opsel = 0x10 then decodeFamily mod ops
    else if opsel = 0x11 then decodeNamedReq mod ops
    else if opsel = 0x12 then decodeAllReq mod ops
    else if opsel = 0x20 then decodeExecute mod ops
    else if opsel = 0x2F then decodeBare .abort mod ops
    else if opsel = 0x30 then decodeBare .status mod ops
    else .illegal
  | _ => .illegal

/-- The total length of a request, from at most its first 7 bytes (R82, R88); `none` where the operation
is unassigned or its count field has not arrived. -/
def requestLength : List Byte → Option Nat
  | opsel :: _ :: ops =>
    if opsel = 0x01 then (match ops with | _ :: n :: _ => some (4 + n.toNat) | _ => none)
    else if opsel = 0x02 then
      (match ops with | _ :: m1 :: m0 :: _ => some (5 + (be16 m1 m0).toNat) | _ => none)
    else if opsel = 0x03 then (match ops with | m1 :: m0 :: _ => some (4 + (be16 m1 m0).toNat) | _ => none)
    else if opsel = 0x10 then
      (match ops with | _ :: _ :: _ :: m1 :: m0 :: _ => some (7 + (be16 m1 m0).toNat) | _ => none)
    else if opsel = 0x11 then
      (match ops with | _ :: _ :: m1 :: m0 :: _ => some (6 + (be16 m1 m0).toNat) | _ => none)
    else if opsel = 0x12 then (match ops with | m1 :: m0 :: _ => some (4 + (be16 m1 m0).toNat) | _ => none)
    else if opsel = 0x20 then (match ops with | _ :: _ :: n :: _ => some (5 + n.toNat) | _ => none)
    else if opsel = 0x2F then some 2
    else if opsel = 0x30 then some 2
    else none
  | _ => none

/-! ### The encoder (R82-R86) -/

/-- A count or two-byte field, big-endian. -/
def be16Bytes (h : Half) : List Byte := [h.extractLsb' 8 8, h.extractLsb' 0 8]

/-- The field `M` of a buffer operand. -/
def countM (buf : List Byte) : List Byte := be16Bytes (BitVec.ofNat 16 buf.length)

/-- The codes of `REPR` (R84). -/
def reprBits : Representation → BitVec 2
  | .unsigned => 0
  | .signed => 1
  | .hex => 2
  | .ascii => 3

/-- The entry-descriptor byte `KR` = `KIND : REPR : 0 : BIT` (R84). -/
def krByte (kind : BitVec 2) (r : Representation) (bit : BitVec 3) : Byte :=
  (((kind ++ reprBits r : BitVec 4) ++ (0 : BitVec 1) : BitVec 5) ++ bit : BitVec 8)

/-- `10 KR OFF LEN M BUF`. -/
def familyBytes (kr : Byte) (off : Half) (len : Byte) (buf : List Byte) : List Byte :=
  0x10 :: kr :: (be16Bytes off ++ len :: (countM buf ++ buf))

/-- The request of a well-formed instruction (R82). -/
def encodeBytes : Instr → List Byte
  | .build cmd p => 0x01 :: 0x00 :: cmd :: BitVec.ofNat 8 p.length :: p
  | .validate none bs => 0x02 :: 0x00 :: 0x00 :: (countM bs ++ bs)
  | .validate (some e) bs => 0x02 :: 0x01 :: e :: (countM bs ++ bs)
  | .parse bs => 0x03 :: 0x00 :: (countM bs ++ bs)
  | .decodeBit r bit off buf => familyBytes (krByte 0 r bit) off 0 buf
  | .decodeByteU off buf => familyBytes (krByte 1 .unsigned 0) off 0 buf
  | .decodeByteS off buf => familyBytes (krByte 1 .signed 0) off 0 buf
  | .decodeByteH off buf => familyBytes (krByte 1 .hex 0) off 0 buf
  | .decodeByteA off buf => familyBytes (krByte 1 .ascii 0) off 0 buf
  | .decodeMbU off len buf => familyBytes (krByte 2 .unsigned 0) off len buf
  | .decodeMbS off len buf => familyBytes (krByte 2 .signed 0) off len buf
  | .decodeMbH off len buf => familyBytes (krByte 2 .hex 0) off len buf
  | .decodeMbA off len buf => familyBytes (krByte 2 .ascii 0) off len buf
  | .decodeNamed idx buf => 0x11 :: 0x00 :: (be16Bytes idx ++ (countM buf ++ buf))
  | .decodeAll none => [0x12, 0x00, 0x00, 0x00]
  | .decodeAll (some buf) => 0x12 :: 0x01 :: (countM buf ++ buf)
  | .execute cmd ret p => 0x20 :: 0x00 :: cmd :: ret :: BitVec.ofNat 8 p.length :: p
  | .abort => [0x2F, 0x00]
  | .status => [0x30, 0x00]

/-- The request of an instruction; `none` where there is none, never truncated (R91). -/
def encode (i : Instr) : Option (List Byte) := if i.wf then some (encodeBytes i) else none

/-! ### Pseudo-instructions (R93) -/

/-- The index of the entry of this name; 0xFFFF, never assigned (R162), where there is none. -/
def schemaIndex (schema : List SchemaEntry) (name : Text) : Half :=
  match schema.findIdx? (fun e => e.name = name) with
  | some i => BitVec.ofNat 16 i
  | none => 0xFFFF

/-- The expansion of a pseudo-instruction. -/
def Pseudo.expand (schema : List SchemaEntry) : Pseudo → Instr
  | .decodeName name buf => .decodeNamed (schemaIndex schema name) buf
  | .poll cmd ret => .execute cmd ret []
  | .check bs expected => .validate (some expected) bs

/-! ### Opcode table words -/

/-- Byte `k` of an instruction whose bits are `w`, numbered as the opcode table numbers them: the 16-bit
head word `OPSEL:MOD` has `OPSEL` in bits 15:8 and lies first (R80); byte `k ≥ 2` is bits `8k+7:8k`; the
bits above `nbits` are 0 (log 16). -/
def tableByte (nbits w k : Nat) : Byte :=
  let v := w % 2 ^ nbits
  if k = 0 then BitVec.ofNat 8 (v / 2 ^ 8) else if k = 1 then BitVec.ofNat 8 v else BitVec.ofNat 8 (v / 2 ^ (8 * k))

/-- The whole request of a table word: as long as R88 says; the head word alone where it says nothing. -/
def tableRequest (nbits w : Nat) : List Byte :=
  let start := (List.range 7).map (tableByte nbits w)
  (List.range ((requestLength start).getD 2)).map (tableByte nbits w)

/-- The instruction the decoder reads from an opcode table word; `none` where it refuses. -/
def decodeTableWord (nbits w : Nat) : Option Instr :=
  match decode (tableRequest nbits w) with
  | .instr i => some i
  | .illegal => none
  | .malformed => none

end Sys2Proof
end

