-- ==== Sys2Proof/Machine/State.lean ====
section
/-! DEFINITION. The state of one block instance (10_state.md), its link (20_memory.md), the host
interface, the reasons a step can stop, and the state after reset (70_reset_and_hazards.md R230-R233). -/

namespace Sys2Proof.Machine

/-! ### Names for the register codes and the results -/

/-- `SEQ.PHASE` (R22): the step the sequencer is about to perform. Codes 6 and 7 are never held. -/
inductive Phase where
  | idle
  | flush
  | send
  | rxHdr
  | rxBody
  | check
deriving DecidableEq, Repr

/-- `SEQ.LAST_FAIL` (R27): why the last failed attempt failed. -/
inductive FailCode where
  | none
  | shortHeader
  | shortBody
  | invalidFrame
deriving DecidableEq, Repr

/-- The status codes (60_exceptions.md R200). -/
inductive Status where
  | ok
  | invalid
  | absent
  | retriesExhausted
  | transportFailure
  | preconditionViolation
  | illegalOperation
  | malformedRequest
  | busy
  | aborted
deriving DecidableEq, Repr

/-- A decoded value (42_calibration_decoder.md R163). -/
inductive DecodedValue where
  | uint (n : Nat)
  | sint (i : Int)
  | ascii (s : Text)
  | hex (t : Text)
deriving DecidableEq, Repr

/-- The value of a result, by the operation's result type (R15, R94). -/
inductive Value where
  /-- BUILD's frame, EXECUTE's payload, the STATUS record -/
  | bytes (bs : List Byte)
  /-- VALIDATE -/
  | bool (b : Bool)
  /-- PARSE: (command, payload) -/
  | frame (cmd : Byte) (payload : List Byte)
  /-- the DECODE family and DECODE.NAMED -/
  | decoded (v : DecodedValue)
  /-- DECODE.ALL: the Decoded Config View (R17), in schema order -/
  | view (entries : List (Text × DecodedValue))
deriving DecidableEq, Repr

/-- A result (R15): a status and, where the operation has one, a value. ABORT's `(OK)` has none. -/
structure Result where
  status : Status
  value : Option Value
deriving DecidableEq, Repr

/-- The request a result belongs to (R206): the one accepted in this very step, or the EXECUTE in
progress (R148). -/
inductive Port where
  | immediate
  | execute
deriving DecidableEq, Repr

/-- A result as the host receives it. -/
structure Delivery where
  port : Port
  result : Result
deriving DecidableEq, Repr

/-- One link primitive and its answer (20_memory.md R55-R57, R61). `sent` is how many bytes a write
transmitted; a read's `answer` is `none` on `XPORT_ERR`. -/
inductive LinkEvent where
  | flush (ok : Bool)
  | write (frame : List Byte) (sent : Nat) (ok : Bool)
  | read (n : Nat) (answer : Option (List Byte))
deriving DecidableEq, Repr

/-- What happens next at the block's interfaces (R58, R205). -/
inductive Event where
  /-- the host delivers a request, whole (R80) -/
  | request (bytes : List Byte)
  /-- the sequencer takes a step; the draw is what the link answers -/
  | block (draw : LinkDraw)
  /-- bytes arrive in LINK.RX (R58) -/
  | arrive (bytes : List Byte)
  /-- the collaborator opens and configures the link, or closes it (R235) -/
  | linkReady (ready : Bool)
  /-- reset is applied (R230-R234) -/
  | reset
deriving DecidableEq, Repr

/-! ### The state -/

/-- The sequencer registers (R22-R29). -/
structure Sequencer where
  /-- SEQ.PHASE (R22) -/
  phase : Phase
  /-- SEQ.ATTEMPT (R25) -/
  attempt : Half
  /-- SEQ.MAX_RETRIES (R23) -/
  maxRetries : Byte
  /-- SEQ.REQ_CMD (R23) -/
  reqCmd : Byte
  /-- SEQ.WRITE_COUNT (R26) -/
  writeCount : Half
  /-- SEQ.LAST_STATUS (R28); `none` is the register's 0xFF, "no EXECUTE has completed" -/
  lastStatus : Option Status
  /-- SEQ.LAST_FAIL (R27) -/
  lastFail : FailCode
  /-- SEQ.BODY_LEN (R29) -/
  bodyLen : Byte
  /-- SEQ.TX_FRAME (R24) -/
  txFrame : List Byte
  /-- SEQ.RX_HDR (R29) -/
  rxHdr : List Byte
  /-- SEQ.RX_BODY (R29) -/
  rxBody : List Byte
  /-- SEQ.RESP_PAYLOAD (R29) -/
  respPayload : List Byte
deriving DecidableEq, Repr

/-- The link of this instance (R34, R61, R235). -/
structure Link where
  /-- LINK.RX (R34) -/
  rx : List Byte
  /-- whether the collaborator has opened and configured the link (R235 item 3) -/
  ready : Bool
  /-- the link primitives issued so far, oldest first (R61) -/
  log : List LinkEvent
deriving DecidableEq, Repr

/-- One block instance with its interfaces. -/
structure State where
  /-- the parameters, the schema ROM among them (R11, R30); no step writes them -/
  params : Params
  /-- the sequencer registers -/
  seq : Sequencer
  /-- the link -/
  link : Link
  /-- what happens next at the interfaces, oldest first -/
  inputs : List Event
  /-- the results delivered to the host, oldest first (R61) -/
  results : List Delivery
  /-- the MODEL's own counter: the number of the next free draw of the link oracle (log 9) -/
  drawCount : Nat
deriving DecidableEq, Repr

/-- No step faults: "No failure in this core is fatal to the process; all are represented as explicit
result values" (R19, R202). Safe: there is no fault to raise. -/
inductive Fault
deriving DecidableEq, Repr

/-- Why a step can be refused. -/
inductive Refusal where
  /-- raised by an arm of `exec` whose instruction has no meaning yet (no arm does so). Safe. -/
  | notModelled (mnemonic : String)
  /-- raised by the meaning of an instruction whose payload has over 255 bytes or whose buffer has over
  65535: it cannot be encoded and "the block has no meaning" for it (R91). Safe: no request decodes to it. -/
  | unencodable
deriving DecidableEq, Repr

/-! ### Reset -/

/-- The sequencer registers after reset (R230). -/
def Sequencer.reset : Sequencer where
  phase := .idle
  attempt := 0
  maxRetries := 0
  reqCmd := 0
  writeCount := 0
  lastStatus := none
  lastFail := .none
  bodyLen := 0
  txFrame := []
  rxHdr := []
  rxBody := []
  respPayload := []

/-- The parameters an instance on the given link starts with (R11, R235 item 1; log 1-4). -/
def Params.start (link : Nat) : Params where
  linkId := link
  schema := Config.schema
  commands := Config.commands
  cmdConfigWrite := Config.cmdConfigWrite
  asciiHigh := .draw

/-- An instance on the given link right after its first reset: LINK.RX and the link's readiness are
unspecified (R231, R235; log 5, 6), nothing has been issued, delivered or placed (log 7, 8). -/
def State.start (link : Nat) : State where
  params := Params.start link
  seq := Sequencer.reset
  link := { rx := Config.launchRx link, ready := Config.launchReady link, log := [] }
  inputs := []
  results := []
  drawCount := 0

/-- The machine right after reset (R230-R233): the instance on link 0 (log 4). -/
def State.reset : State := State.start 0

end Sys2Proof.Machine
end

