-- ==== Sys2Proof/Machine/Flags.lean ====
section
/-! DEFINITION. The block has no flags or condition codes (10_state.md R32). What a host can read of past
outcomes is SEQ.LAST_STATUS and SEQ.LAST_FAIL; here are the codes of those registers, of SEQ.PHASE and of
the statuses, and the test for "busy". -/

namespace Sys2Proof.Machine

/-- The code of a phase (R22). -/
def phaseCode : Phase → Byte
  | .idle => 0
  | .flush => 1
  | .send => 2
  | .rxHdr => 3
  | .rxBody => 4
  | .check => 5

/-- The code of a failure reason (R27). -/
def failByte : FailCode → Byte
  | .none => 0
  | .shortHeader => 1
  | .shortBody => 2
  | .invalidFrame => 3

/-- The code of a status (R200). -/
def statusCode : Status → Byte
  | .ok => 0x00
  | .invalid => 0x01
  | .absent => 0x02
  | .retriesExhausted => 0x03
  | .transportFailure => 0x04
  | .preconditionViolation => 0x05
  | .illegalOperation => 0x06
  | .malformedRequest => 0x07
  | .busy => 0x08
  | .aborted => 0x09

/-- The value of SEQ.LAST_STATUS (R28): 0xFF means that no EXECUTE has completed. -/
def lastStatusByte : Option Status → Byte
  | none => 0xFF
  | some s => statusCode s

/-- The sequencer is busy (R22). -/
def busy (s : State) : Bool := decide (s.seq.phase ≠ .idle)

end Sys2Proof.Machine
end

