-- ==== Sys2Proof/Machine/Operands.lean ====
section
/-! DEFINITION. The pseudocode primitives over byte sequences (00_scope.md R13, R14) and the renderings of
the decoder (42_calibration_decoder.md R173, R174). -/

namespace Sys2Proof.Machine

/-- `bs[i]` (R13); only used where `i < |bs|`. -/
def byteAt (bs : List Byte) (i : Nat) : Byte := bs.getD i 0

/-- `bs[a ..< b]` (R13). -/
def slice (bs : List Byte) (a b : Nat) : List Byte := (bs.drop a).take (b - a)

/-- `sum8(bs)` (R14): the exact sum, modulo 256. -/
def sum8 (bs : List Byte) : Byte := BitVec.ofNat 8 (bs.map BitVec.toNat).sum

/-- `sext_8(v)` (R14). -/
def sext8 (v : Byte) : Int := if v.toNat < 128 then v.toNat else (v.toNat : Int) - 256

/-- `be_uint(bs)` (R14): most significant byte first, of any length. -/
def beUint (bs : List Byte) : Nat := bs.foldl (fun n b => 256 * n + b.toNat) 0

/-- `MemRead(buf, a, n)` (R14); `none` is ABSENT. -/
def memRead (buf : List Byte) (a n : Nat) : Option (List Byte) :=
  if a + n ≤ buf.length then some (slice buf a (a + n)) else none

/-- The bytes before the trailing NUL run (R174, log 13). -/
def stripNul (bs : List Byte) : List Byte := (bs.reverse.dropWhile (· = 0)).reverse

/-- The characters with these codes (R174, R175 `latin1`). -/
def chars (bs : List Byte) : Text := bs.map fun b => Char.ofNat b.toNat

/-- Some byte is 0x80 or above (R174, R175). -/
def anyHigh (bs : List Byte) : Bool := bs.any fun b => decide (0x80 ≤ b.toNat)

/-- `digit(d)` = `"0123456789abcdef"[d]` (R173). -/
def hexDigit (d : BitVec 4) : Char :=
  if d.toNat < 10 then Char.ofNat (48 + d.toNat) else Char.ofNat (87 + d.toNat)

/-- Two digits per byte, high nibble first, in buffer order (R173). -/
def hexText (bs : List Byte) : Text :=
  bs.flatMap fun b => [hexDigit (b.extractLsb' 4 4), hexDigit (b.extractLsb' 0 4)]

end Sys2Proof.Machine
end

