-- ==== Sys2Proof/Machine/Ops.lean ====
section
/-! DEFINITION. The shared operations over the state: delivering a result, raising a status (the block's
whole exception entry, 60_exceptions.md R206; there is no return from it, R207), completing an EXECUTE
(41_request_sequencer.md R148), the link primitives (20_memory.md R55-R57), and reset. -/

namespace Sys2Proof.Machine

/-! ### Results -/

/-- Deliver a result to the host (R94, R203). -/
def deliver (p : Port) (r : Result) (s : State) : State :=
  { s with results := s.results ++ [⟨p, r⟩] }

/-- `return (OK, v)` (R15). -/
def returnOk (v : Option Value) (s : State) : State := deliver .immediate ⟨.ok, v⟩ s

/-- `raise <status>` (R14, R206): the operation ends, its result is the status without a value (R201), and
nothing else changes. -/
def raise (st : Status) (s : State) : State := deliver .immediate ⟨st, none⟩ s

/-- A decode's result: the value, or ABSENT (R164). -/
def returnDecoded (v : Option DecodedValue) (s : State) : State :=
  match v with
  | some v => returnOk (some (.decoded v)) s
  | none => raise .absent s

/-- The next state of an operation with an operand of `n` bytes where the encoding carries at most `max`;
refused at the decode boundary above that (R91). -/
def encodable (n max : Nat) (t : State) : Host.Outcome State Fault Refusal :=
  if n ≤ max then .next t else .refused .unencodable

/-- `complete(st)` (R148): SEQ.LAST_STATUS and SEQ.PHASE are written, and the EXECUTE in progress gets its
result, with SEQ.RESP_PAYLOAD if and only if the status is OK. -/
def complete (st : Status) (s : State) : State :=
  deliver .execute ⟨st, if st = .ok then some (.bytes s.seq.respPayload) else none⟩
    { s with seq := { s.seq with lastStatus := some st, phase := .idle } }

/-! ### Link primitives -/

/-- What a link primitive returns (R55-R57). -/
inductive LinkAnswer where
  | ok (bs : List Byte)
  | xportErr
deriving DecidableEq, Repr

/-- The primitive fails: the draw says so, or the link is not open (R235: "port closed"). -/
def linkFails (d : LinkDraw) (l : Link) : Bool := !(l.ready && d.ok)

/-- Bytes arrive in LINK.RX (R58). -/
def linkArrive (bs : List Byte) (l : Link) : Link := { l with rx := l.rx ++ bs }

/-- `LINK.flush()` (R55): on OK, LINK.RX is empty. -/
def linkFlush (d : LinkDraw) (l : Link) : LinkAnswer × Link :=
  if linkFails d l then (.xportErr, { l with rx := d.rxAfter, log := l.log ++ [.flush false] })
  else (.ok [], { l with rx := [], log := l.log ++ [.flush true] })

/-- `LINK.write(bs)` (R57): transmits `bs` in order; on a failure the draw says how many bytes went out. -/
def linkWrite (bs : List Byte) (d : LinkDraw) (l : Link) : LinkAnswer × Link :=
  if linkFails d l then
    (.xportErr, { linkArrive d.arrived l with log := l.log ++ [.write bs (min d.count bs.length) false] })
  else (.ok [], { linkArrive d.arrived l with log := l.log ++ [.write bs bs.length true] })

/-- `LINK.read(n)` (R56): 0 to `n` bytes, removed from the front of LINK.RX. -/
def linkRead (n : Nat) (d : LinkDraw) (l : Link) : LinkAnswer × Link :=
  if linkFails d l then (.xportErr, { l with rx := d.rxAfter, log := l.log ++ [.read n none] })
  else
    let rx := l.rx ++ d.arrived
    let got := rx.take (min d.count n)
    (.ok got, { l with rx := rx.drop (min d.count n), log := l.log ++ [.read n (some got)] })

/-- The bytes one link primitive put on the transmit stream (R50). -/
def sentBytes : LinkEvent → List Byte
  | .flush _ => []
  | .write bs sent _ => bs.take sent
  | .read _ _ => []

/-- The link transmit stream (R50): every byte transmitted, in order. -/
def transmitStream (l : Link) : List Byte := l.log.flatMap sentBytes

/-! ### Reset -/

/-- Reset applied while running (R230-R234): the sequencer registers take their reset values; the link,
SCHEMA, the results delivered and the pending inputs are untouched, and an EXECUTE in progress gets no
result. -/
def applyReset (s : State) : State := { s with seq := Sequencer.reset }

end Sys2Proof.Machine
end

