-- ==== Sys2Proof/Machine/CalibrationDecoder.lean ====
section
/-! DEFINITION. The calibration decoder (42_calibration_decoder.md): the DECODE family, DECODE.NAMED and
DECODE.ALL. -/

namespace Sys2Proof.Machine

/-! ### One decode per kind and representation; `none` is ABSENT -/

/-- Bit (R165, R166). -/
def decodeBit (bit : BitVec 3) (off : Half) (buf : List Byte) : Option DecodedValue :=
  (memRead buf off.toNat 1).map fun x => .uint ((byteAt x 0 >>> bit.toNat) &&& 1).toNat

/-- Byte, Unsigned (R167). -/
def decodeByteUnsigned (off : Half) (buf : List Byte) : Option DecodedValue :=
  (memRead buf off.toNat 1).map fun x => .uint (byteAt x 0).toNat

/-- Byte, Signed (R168). -/
def decodeByteSigned (off : Half) (buf : List Byte) : Option DecodedValue :=
  (memRead buf off.toNat 1).map fun x => .sint (sext8 (byteAt x 0))

/-- Byte, Hex: as Unsigned (R169). -/
def decodeByteHex (off : Half) (buf : List Byte) : Option DecodedValue := decodeByteUnsigned off buf

/-- Byte, Ascii: as Unsigned (R170). -/
def decodeByteAscii (off : Half) (buf : List Byte) : Option DecodedValue := decodeByteUnsigned off buf

/-- Multibyte, Unsigned: big-endian, of any width (R171). -/
def decodeMbUnsigned (off : Half) (len : Byte) (buf : List Byte) : Option DecodedValue :=
  (memRead buf off.toNat len.toNat).map fun x => .uint (beUint x)

/-- Multibyte, Signed: as Unsigned, with no sign interpretation (R172). -/
def decodeMbSigned (off : Half) (len : Byte) (buf : List Byte) : Option DecodedValue :=
  decodeMbUnsigned off len buf

/-- Multibyte, Hex (R173). -/
def decodeMbHex (off : Half) (len : Byte) (buf : List Byte) : Option DecodedValue :=
  (memRead buf off.toNat len.toNat).map fun x => .hex (hexText x)

/-- An Ascii field whose stripped bytes have a byte of 0x80 or above, by `ASCII_HIGH` (R175). -/
def asciiHighValue (ah : AsciiHigh) (buf : List Byte) (off len : Nat) (y : List Byte) : Option DecodedValue :=
  match ah with
  | .absent => none
  | .latin1 => some (.ascii (chars y))
  | .draw => some (.ascii (Config.asciiDraw buf off len))

/-- Multibyte, Ascii (R174): bounds first (R204 item 5), then the trailing NUL run is removed. -/
def decodeMbAscii (ah : AsciiHigh) (off : Half) (len : Byte) (buf : List Byte) : Option DecodedValue :=
  match memRead buf off.toNat len.toNat with
  | none => none
  | some x =>
    let y := stripNul x
    if anyHigh y then asciiHighValue ah buf off.toNat len.toNat y else some (.ascii (chars y))

/-! ### Whole-schema operations -/

/-- `decode_field(buf, e)` (R177): by kind and representation; `validRange` and `readonly` are not read. -/
def decodeField (ah : AsciiHigh) (buf : List Byte) (e : SchemaEntry) : Option DecodedValue :=
  match e.kind, e.representation with
  | .bit i, _ => decodeBit i e.offset buf
  | .byte, .unsigned => decodeByteUnsigned e.offset buf
  | .byte, .signed => decodeByteSigned e.offset buf
  | .byte, .hex => decodeByteHex e.offset buf
  | .byte, .ascii => decodeByteAscii e.offset buf
  | .multibyte len, .unsigned => decodeMbUnsigned e.offset len buf
  | .multibyte len, .signed => decodeMbSigned e.offset len buf
  | .multibyte len, .hex => decodeMbHex e.offset len buf
  | .multibyte len, .ascii => decodeMbAscii ah e.offset len buf

/-- DECODE.NAMED's value (R178): an unknown index is ABSENT, before bounds (R204 item 4). -/
def decodeNamed (p : Params) (idx : Half) (buf : List Byte) : Option DecodedValue :=
  match p.schema[idx.toNat]? with
  | none => none
  | some e => decodeField p.asciiHigh buf e

/-- The view of a present buffer (R179): the entries that decode, in schema order. -/
def decodeView (p : Params) (buf : List Byte) : List (Text × DecodedValue) :=
  p.schema.filterMap fun e => (decodeField p.asciiHigh buf e).map fun v => (e.name, v)

/-- DECODE.ALL's view (R179); an absent buffer gives the empty view. -/
def decodeAll (p : Params) : Option (List Byte) → List (Text × DecodedValue)
  | none => []
  | some buf => decodeView p buf

/-! ### The operations -/

/-- A DECODE operation on an inline descriptor: the decode's value or ABSENT. -/
def runDecode (buf : List Byte) (v : Option DecodedValue) (s : State) : Host.Outcome State Fault Refusal :=
  encodable buf.length Config.bufMax (returnDecoded v s)

/-- The same on a Multibyte descriptor; one of length 0 fails the check of R162: MALFORMED_REQUEST. -/
def runMbDecode (len : Byte) (buf : List Byte) (v : Option DecodedValue) (s : State) :
    Host.Outcome State Fault Refusal :=
  encodable buf.length Config.bufMax (if lenLegal len then returnDecoded v s else raise .malformedRequest s)

/-- DECODE.BIT (R165); the representation has no effect (R166). -/
def execDecodeBit (_repr : Representation) (bit : BitVec 3) (off : Half) (buf : List Byte) (s : State) :
    Host.Outcome State Fault Refusal := runDecode buf (decodeBit bit off buf) s

/-- DECODE.BYTE.U (R167). -/
def execDecodeByteU (off : Half) (buf : List Byte) (s : State) : Host.Outcome State Fault Refusal :=
  runDecode buf (decodeByteUnsigned off buf) s

/-- DECODE.BYTE.S (R168). -/
def execDecodeByteS (off : Half) (buf : List Byte) (s : State) : Host.Outcome State Fault Refusal :=
  runDecode buf (decodeByteSigned off buf) s

/-- DECODE.BYTE.H (R169). -/
def execDecodeByteH (off : Half) (buf : List Byte) (s : State) : Host.Outcome State Fault Refusal :=
  runDecode buf (decodeByteHex off buf) s

/-- DECODE.BYTE.A (R170). -/
def execDecodeByteA (off : Half) (buf : List Byte) (s : State) : Host.Outcome State Fault Refusal :=
  runDecode buf (decodeByteAscii off buf) s

/-- DECODE.MB.U (R171). -/
def execDecodeMbU (off : Half) (len : Byte) (buf : List Byte) (s : State) :
    Host.Outcome State Fault Refusal := runMbDecode len buf (decodeMbUnsigned off len buf) s

/-- DECODE.MB.S (R172). -/
def execDecodeMbS (off : Half) (len : Byte) (buf : List Byte) (s : State) :
    Host.Outcome State Fault Refusal := runMbDecode len buf (decodeMbSigned off len buf) s

/-- DECODE.MB.H (R173). -/
def execDecodeMbH (off : Half) (len : Byte) (buf : List Byte) (s : State) :
    Host.Outcome State Fault Refusal := runMbDecode len buf (decodeMbHex off len buf) s

/-- DECODE.MB.A (R174, R175). -/
def execDecodeMbA (off : Half) (len : Byte) (buf : List Byte) (s : State) :
    Host.Outcome State Fault Refusal := runMbDecode len buf (decodeMbAscii s.params.asciiHigh off len buf) s

/-- DECODE.NAMED (R178). -/
def execDecodeNamed (idx : Half) (buf : List Byte) (s : State) : Host.Outcome State Fault Refusal :=
  runDecode buf (decodeNamed s.params idx buf) s

/-- DECODE.ALL (R179). -/
def execDecodeAll (buf : Option (List Byte)) (s : State) : Host.Outcome State Fault Refusal :=
  encodable (buf.getD []).length Config.bufMax (returnOk (some (.view (decodeAll s.params buf))) s)

end Sys2Proof.Machine
end

