-- ==== Sys2Proof/Machine/FrameCodec.lean ====
section
/-! DEFINITION. The frame codec (40_frame_codec.md): BUILD, VALIDATE, PARSE. -/

namespace Sys2Proof.Machine

/-- `cs(cmd, P)` (R100). -/
def checksum (cmd : Byte) (p : List Byte) : Byte := sum8 (cmd :: BitVec.ofNat 8 p.length :: p)

/-- `build(cmd, P)` (R101), neither clamped nor truncated (R102). -/
def build (cmd : Byte) (p : List Byte) : List Byte :=
  cmd :: BitVec.ofNat 8 p.length :: (p ++ [checksum cmd p])

/-- The declared length `L` of a frame: byte 1 (R70, R104). -/
def declaredLen (bs : List Byte) : Nat := (byteAt bs 1).toNat

/-- `validate(bs, exp)`: the checks (a) to (d), in order (R104). -/
def validate (bs : List Byte) (exp : Option Byte) : Bool :=
  if bs.length < Config.minFrame then false
  else if bs.length < 3 + declaredLen bs then false
  else if sum8 (slice bs 0 (2 + declaredLen bs)) ≠ byteAt bs (2 + declaredLen bs) then false
  else
    match exp with
    | some e => decide (byteAt bs 0 = e)
    | none => true

/-- The payload of a valid frame: `bs[2 ..< 2+L]` (R109). -/
def framePayload (bs : List Byte) : List Byte := slice bs 2 (2 + declaredLen bs)

/-- `parse(bs)` (R109); `none` is INVALID. -/
def parse (bs : List Byte) : Option (Byte × List Byte) :=
  if validate bs none then some (byteAt bs 0, framePayload bs) else none

/-- PARSE's result (R110). -/
def returnParsed (r : Option (Byte × List Byte)) (s : State) : State :=
  match r with
  | some (cmd, p) => returnOk (some (.frame cmd p)) s
  | none => raise .invalid s

/-- BUILD (R103). -/
def execBuild (cmd : Byte) (p : List Byte) (s : State) : Host.Outcome State Fault Refusal :=
  encodable p.length Config.buildPayloadMax (returnOk (some (.bytes (build cmd p))) s)

/-- VALIDATE (R107). -/
def execValidate (exp : Option Byte) (bs : List Byte) (s : State) : Host.Outcome State Fault Refusal :=
  encodable bs.length Config.bufMax (returnOk (some (.bool (validate bs exp))) s)

/-- PARSE (R110). -/
def execParse (bs : List Byte) (s : State) : Host.Outcome State Fault Refusal :=
  encodable bs.length Config.bufMax (returnParsed (parse bs) s)

end Sys2Proof.Machine
end

