-- ==== Sys2Proof/Machine/RequestSequencer.lean ====
section
/-! DEFINITION. The request sequencer (41_request_sequencer.md): EXECUTE's acceptance and steps, ABORT and
STATUS. -/

namespace Sys2Proof.Machine

/-! ### The attempt cycle -/

/-- Attempt start (R134). -/
def attemptStart (s : State) : State :=
  if s.seq.attempt.toNat = s.seq.maxRetries.toNat + 1 then complete .retriesExhausted s
  else { s with seq := { s.seq with
    attempt := s.seq.attempt + 1, rxHdr := [], rxBody := [], bodyLen := 0, phase := .flush } }

/-- The attempt failed for this reason: on to the next attempt start (R138, R139, R142). -/
def failAttempt (why : FailCode) (s : State) : State :=
  attemptStart { s with seq := { s.seq with lastFail := why } }

/-- A link primitive returned `XPORT_ERR`: the EXECUTE ends at once (R136). -/
def transportFailure (l : Link) (s : State) : State := complete .transportFailure { s with link := l }

/-- FLUSH (R135). -/
def flushStep (d : LinkDraw) (s : State) : State :=
  match linkFlush d s.link with
  | (.xportErr, l) => transportFailure l s
  | (.ok _, l) => { s with link := l, seq := { s.seq with phase := .send } }

/-- SEND (R137): the write is counted whether it succeeds or not (R26). -/
def sendStep (d : LinkDraw) (s : State) : State :=
  let s := { s with seq := { s.seq with writeCount := s.seq.writeCount + 1 } }
  match linkWrite s.seq.txFrame d s.link with
  | (.xportErr, l) => transportFailure l s
  | (.ok _, l) => { s with link := l, seq := { s.seq with phase := .rxHdr } }

/-- `min(L, 16) + 1` for a header's second byte (R138). -/
def bodyLength (h : List Byte) : Nat := min (declaredLen h) Config.rxLenCeil + 1

/-- RX_HDR (R138): a short or empty header fails the attempt. -/
def rxHdrStep (d : LinkDraw) (s : State) : State :=
  match linkRead Config.hdrLen d s.link with
  | (.xportErr, l) => transportFailure l s
  | (.ok h, l) =>
    let s := { s with link := l, seq := { s.seq with rxHdr := h } }
    if h.length < Config.hdrLen then failAttempt .shortHeader s
    else { s with seq := { s.seq with bodyLen := BitVec.ofNat 8 (bodyLength h), phase := .rxBody } }

/-- RX_BODY (R139): a short body fails the attempt. -/
def rxBodyStep (d : LinkDraw) (s : State) : State :=
  match linkRead s.seq.bodyLen.toNat d s.link with
  | (.xportErr, l) => transportFailure l s
  | (.ok b, l) =>
    let s := { s with link := l, seq := { s.seq with rxBody := b } }
    if b.length < s.seq.bodyLen.toNat then failAttempt .shortBody s
    else { s with seq := { s.seq with phase := .check } }

/-- The frame read in this attempt: `SEQ.RX_HDR ++ SEQ.RX_BODY` (R140). -/
def rxFrame (s : State) : List Byte := s.seq.rxHdr ++ s.seq.rxBody

/-- CHECK (R140-R142): it issues no link primitive. -/
def checkStep (s : State) : State :=
  if validate (rxFrame s) (some s.seq.reqCmd) then
    complete .ok { s with seq := { s.seq with respPayload := framePayload (rxFrame s) } }
  else failAttempt .invalidFrame s

/-- One step of the sequencer, by its phase; an idle sequencer does nothing (R22). -/
def seqStep (d : LinkDraw) (s : State) : State :=
  match s.seq.phase with
  | .idle => s
  | .flush => flushStep d s
  | .send => sendStep d s
  | .rxHdr => rxHdrStep d s
  | .rxBody => rxBodyStep d s
  | .check => checkStep s

/-! ### EXECUTE, ABORT, STATUS -/

/-- `latch(cmd, ret)` (R132). -/
def latch (cmd ret : Byte) (s : State) : State :=
  { s with seq := { s.seq with
    reqCmd := cmd, maxRetries := ret, attempt := 0, writeCount := 0, lastFail := .none,
    respPayload := [], rxHdr := [], rxBody := [], bodyLen := 0 } }

/-- An EXECUTE is accepted or turned away (R130): BUSY (R131), latch (R132), PRECONDITION_VIOLATION (R133),
else the frame is built (R24) and the first attempt starts (R134). -/
def acceptExecute (cmd ret : Byte) (p : List Byte) (s : State) : State :=
  if busy s then raise .busy s
  else if cmd = s.params.cmdConfigWrite ∧ p.length ≠ Config.configWriteLen then
    complete .preconditionViolation (latch cmd ret s)
  else
    let s := latch cmd ret s
    attemptStart { s with seq := { s.seq with txFrame := build cmd p } }

/-- ABORT's effect (R144): the EXECUTE in progress gets ABORTED, then ABORT gets OK (log 15). -/
def abortRequest (s : State) : State :=
  returnOk none (if busy s then complete .aborted s else s)

/-- The high byte and the low byte of a 16-bit register. -/
def halfBytes (h : Half) : List Byte := [h.extractLsb' 8 8, h.extractLsb' 0 8]

/-- The 10-byte STATUS record (R145). -/
def statusRecord (q : Sequencer) : List Byte :=
  phaseCode q.phase :: (halfBytes q.attempt ++ [q.maxRetries, q.reqCmd] ++ halfBytes q.writeCount ++
    [lastStatusByte q.lastStatus, failByte q.lastFail, q.bodyLen])

/-- EXECUTE (R130). -/
def execExecute (cmd ret : Byte) (p : List Byte) (s : State) : Host.Outcome State Fault Refusal :=
  encodable p.length Config.buildPayloadMax (acceptExecute cmd ret p s)

/-- ABORT (R144). -/
def execAbort (s : State) : Host.Outcome State Fault Refusal := .next (abortRequest s)

/-- STATUS (R145). -/
def execStatus (s : State) : Host.Outcome State Fault Refusal :=
  .next (returnOk (some (.bytes (statusRecord s.seq))) s)

end Sys2Proof.Machine
end

