-- ==== Sys2Proof/Machine/Dispatch.lean ====
section
/-! DEFINITION. The dispatch of a decoded request to its meaning, one arm per constructor. -/

namespace Sys2Proof.Machine

/-- The meaning of an instruction at a state: 60_exceptions.md R206, every operation ends with a status. -/
def exec (i : Instr) (s : State) : Host.Outcome State Fault Refusal :=
  match i with
  | .build cmd p => Sys2Proof.Machine.execBuild cmd p s
  | .validate e bs => Sys2Proof.Machine.execValidate e bs s
  | .parse bs => Sys2Proof.Machine.execParse bs s
  | .decodeBit r bit off buf => Sys2Proof.Machine.execDecodeBit r bit off buf s
  | .decodeByteU off buf => Sys2Proof.Machine.execDecodeByteU off buf s
  | .decodeByteS off buf => Sys2Proof.Machine.execDecodeByteS off buf s
  | .decodeByteH off buf => Sys2Proof.Machine.execDecodeByteH off buf s
  | .decodeByteA off buf => Sys2Proof.Machine.execDecodeByteA off buf s
  | .decodeMbU off len buf => Sys2Proof.Machine.execDecodeMbU off len buf s
  | .decodeMbS off len buf => Sys2Proof.Machine.execDecodeMbS off len buf s
  | .decodeMbH off len buf => Sys2Proof.Machine.execDecodeMbH off len buf s
  | .decodeMbA off len buf => Sys2Proof.Machine.execDecodeMbA off len buf s
  | .decodeNamed idx buf => Sys2Proof.Machine.execDecodeNamed idx buf s
  | .decodeAll buf => Sys2Proof.Machine.execDecodeAll buf s
  | .execute cmd ret p => Sys2Proof.Machine.execExecute cmd ret p s
  | .abort => Sys2Proof.Machine.execAbort s
  | .status => Sys2Proof.Machine.execStatus s

end Sys2Proof.Machine
end

