-- ==== Sys2Proof/Machine/Inputs.lean ====
section
/-! DEFINITION. What one step does with the next input event (20_memory.md R58, 60_exceptions.md R205): a
request is decoded and run, the sequencer takes a step, the link acts, or reset is applied. -/

namespace Sys2Proof.Machine

/-- A request is sorted (R90): a legal one runs; ILLEGAL_OPERATION and MALFORMED_REQUEST are its result
and change nothing else. -/
def acceptRequest (r : List Byte) (s : State) : Host.Outcome State Fault Refusal :=
  match decode r with
  | .instr i => exec i s
  | .illegal => .next (raise .illegalOperation s)
  | .malformed => .next (raise .malformedRequest s)

/-- With no input placed, a busy sequencer goes on with the link oracle's next free draw (R56, R241;
log 9); an idle block stays as it is (R214). -/
def runSequencer (s : State) : State :=
  if busy s then
    seqStep (Config.linkDraw s.params.linkId s.drawCount) { s with drawCount := s.drawCount + 1 }
  else s

/-- The next input event, or, with none, the sequencer. -/
def takeInput (s : State) : Host.Outcome State Fault Refusal :=
  match s.inputs with
  | [] => .next (runSequencer s)
  | .request r :: rest => acceptRequest r { s with inputs := rest }
  | .block d :: rest => .next (seqStep d { s with inputs := rest })
  | .arrive bs :: rest => .next { s with inputs := rest, link := linkArrive bs s.link }
  | .linkReady b :: rest => .next { s with inputs := rest, link := { s.link with ready := b } }
  | .reset :: rest => .next (applyReset { s with inputs := rest })

end Sys2Proof.Machine
end

