-- ==== Sys2Proof/Machine/Step.lean ====
section
/-! DEFINITION. One step of the machine, and the placing of a request that the next step runs. -/

namespace Sys2Proof.Machine

/-- One step: of the host, of the block, of the link, or of reset, as the next input event says. -/
def step (s : State) : Host.Outcome State Fault Refusal := takeInput s

/-- The state whose very next step takes the request of this opcode table word: the block fetches nothing
(R21), the host delivers requests (log 8). -/
def State.withFetchWord (s : State) (nbits w : Nat) : State :=
  { s with inputs := .request (tableRequest nbits w) :: s.inputs }

end Sys2Proof.Machine
end

