-- ==== Sys2Proof/Machine/Assembler.lean ====
section
/-! DEFINITION. The assembler syntax (30_encoding.md R92, R93): one line of text to the request it encodes
as, and the disassembler's line of an instruction. Where R92 fixes no spelling (blanks, digits, the number
format of the disassembler) the spelling is a DESIGN CHOICE (log 19). -/

namespace Sys2Proof.Machine

/-! ### Tokens -/

/-- A token of a line. -/
inductive Token where
  | word (w : Text)
  | quoted (bs : List Byte)
  | comma
  | openBracket
  | closeBracket
deriving DecidableEq, Repr

/-- Where the reader of a line stands; the collected characters or bytes are in reverse. -/
inductive LexMode where
  | plain
  | inWord (acc : Text)
  | inQuote (acc : List Byte)
  | escape (acc : List Byte)
  | comment
  | bad
deriving DecidableEq, Repr

/-- A character outside a word or a quoted string. -/
def lexPlain (toks : List Token) (c : Char) : LexMode × List Token :=
  if c = ' ' || c = '\t' then (.plain, toks)
  else if c = ',' then (.plain, toks ++ [.comma])
  else if c = '[' then (.plain, toks ++ [.openBracket])
  else if c = ']' then (.plain, toks ++ [.closeBracket])
  else if c = '"' then (.inQuote [], toks)
  else if c = ';' then (.comment, toks)
  else (.inWord [c], toks)

/-- A character ends a word. -/
def endsWord (c : Char) : Bool := c ∈ [' ', '\t', ',', '[', ']', '"', ';']

/-- One character of a line: `;` begins a comment, `\0` in a quoted string is 0x00 (R92). DESIGN CHOICE: any
other character of a quoted string is the byte of its code below 128; one of 128 or above, or another escape,
refuses the line (log 19). -/
def lexChar (st : LexMode × List Token) (c : Char) : LexMode × List Token :=
  match st with
  | (.plain, toks) => lexPlain toks c
  | (.inWord acc, toks) =>
    if endsWord c then lexPlain (toks ++ [.word acc.reverse]) c else (.inWord (c :: acc), toks)
  | (.inQuote acc, toks) =>
    if c = '"' then (.plain, toks ++ [.quoted acc.reverse])
    else if c = '\\' then (.escape acc, toks)
    else if c.toNat < 128 then (.inQuote (BitVec.ofNat 8 c.toNat :: acc), toks)
    else (.bad, toks)
  | (.escape acc, toks) => if c = '0' then (.inQuote (0 :: acc), toks) else (.bad, toks)
  | (.comment, toks) => (.comment, toks)
  | (.bad, toks) => (.bad, toks)

/-- The tokens of a line; `none` where a quoted string is not closed or holds an unknown escape. -/
def lexLine (line : Text) : Option (List Token) :=
  match line.foldl lexChar (.plain, []) with
  | (.plain, toks) => some toks
  | (.comment, toks) => some toks
  | (.inWord acc, toks) => some (toks ++ [.word acc.reverse])
  | (.inQuote _, _) => none
  | (.escape _, _) => none
  | (.bad, _) => none

/-! ### Numbers and operands -/

/-- The value of a hexadecimal digit of either case. -/
def hexValue (c : Char) : Option Nat :=
  if '0' ≤ c ∧ c ≤ '9' then some (c.toNat - 48)
  else if 'a' ≤ c ∧ c ≤ 'f' then some (c.toNat - 87)
  else if 'A' ≤ c ∧ c ≤ 'F' then some (c.toNat - 55)
  else none

/-- The digits of a number in a base. -/
def digitsValue (base : Nat) (ds : Text) : Option Nat :=
  ds.foldl (fun acc c => do
    let n ← acc
    let d ← hexValue c
    if d < base then some (base * n + d) else none) (some 0)

/-- A number: hex `0x..` or decimal. -/
def numberOf (w : Text) : Option Nat :=
  match w with
  | '0' :: 'x' :: d :: ds => digitsValue 16 (d :: ds)
  | d :: ds => digitsValue 10 (d :: ds)
  | [] => none

/-- A number that fits a field of `width` bits; never truncated (R91). -/
def fieldOf (width : Nat) (w : Text) : Option (BitVec width) := do
  let n ← numberOf w
  if n < 2 ^ width then some (BitVec.ofNat width n) else none

/-- An operand of a line. -/
inductive Operand where
  | word (w : Text)
  | bytes (bs : List Byte)
deriving DecidableEq, Repr

/-- The operands after the mnemonic, separated by commas; `acc` is the open byte sequence, if any. -/
def operands (acc : Option (List Byte)) (wantComma : Bool) : List Token → Option (List Operand)
  | [] => if acc.isNone && wantComma then some [] else none
  | .comma :: ts => if wantComma then operands acc false ts else none
  | .word w :: ts =>
    if wantComma then none
    else
      match acc with
      | some bs => (fieldOf 8 w).bind fun b => operands (some (bs ++ [b])) true ts
      | none => (operands none true ts).map (.word w :: ·)
  | .quoted bs :: ts =>
    if wantComma || acc.isSome then none else (operands none true ts).map (.bytes bs :: ·)
  | .openBracket :: ts =>
    if wantComma || acc.isSome then none
    else
      match ts with
      | .closeBracket :: rest => (operands none true rest).map (.bytes [] :: ·)
      | rest => operands (some []) false rest
  | .closeBracket :: ts =>
    match acc with
    | some bs => if wantComma then (operands none true ts).map (.bytes bs :: ·) else none
    | none => none

/-- What a line stands for: an instruction or a pseudo-instruction. -/
inductive Line where
  | instr (i : Instr)
  | pseudo (p : Pseudo)
deriving DecidableEq, Repr

/-- The representation a suffix names: `U S H A` (R92). -/
def reprOfSuffix (c : Char) : Option Representation :=
  if c = 'U' then some .unsigned else if c = 'S' then some .signed
  else if c = 'H' then some .hex else if c = 'A' then some .ascii else none

/-- `DECODE.BIT off, bit, [BUF]` with a representation. -/
def bitLine (r : Representation) : List Operand → Option Line
  | [.word off, .word bit, .bytes buf] => do
    some (.instr (.decodeBit r (← fieldOf 3 bit) (← fieldOf 16 off) buf))
  | _ => none

/-- `DECODE.BYTE.<r> off, [BUF]`. -/
def byteLine (r : Representation) : List Operand → Option Line
  | [.word off, .bytes buf] => do some (.instr (byteVariant r (← fieldOf 16 off) buf))
  | _ => none

/-- `DECODE.MB.<r> off, len, [BUF]`. -/
def mbLine (r : Representation) : List Operand → Option Line
  | [.word off, .word len, .bytes buf] => do
    some (.instr (mbVariant r (← fieldOf 16 off) (← fieldOf 8 len) buf))
  | _ => none

/-- The line of a mnemonic and its operands (R92, R93). DESIGN CHOICE: the name in `DECODE name` is one word,
so a name with a blank, comma, bracket, quote or semicolon cannot be written in a line (log 20). -/
def lineOf (mnemonic : Text) (ops : List Operand) : Option Line :=
  if mnemonic = "BUILD".toList then
    (match ops with | [.word c, .bytes p] => do some (.instr (.build (← fieldOf 8 c) p)) | _ => none)
  else if mnemonic = "VALIDATE".toList then
    (match ops with
      | [.bytes bs] => some (.instr (.validate none bs))
      | [.bytes bs, .word e] => do some (.instr (.validate (some (← fieldOf 8 e)) bs))
      | _ => none)
  else if mnemonic = "PARSE".toList then
    (match ops with | [.bytes bs] => some (.instr (.parse bs)) | _ => none)
  else if mnemonic = "DECODE.BIT".toList then bitLine .unsigned ops
  else if mnemonic.take 11 = "DECODE.BIT.".toList then
    (match mnemonic.drop 11 with | [c] => do bitLine (← reprOfSuffix c) ops | _ => none)
  else if mnemonic.take 12 = "DECODE.BYTE.".toList then
    (match mnemonic.drop 12 with | [c] => do byteLine (← reprOfSuffix c) ops | _ => none)
  else if mnemonic.take 10 = "DECODE.MB.".toList then
    (match mnemonic.drop 10 with | [c] => do mbLine (← reprOfSuffix c) ops | _ => none)
  else if mnemonic = "DECODE.NAMED".toList then
    (match ops with
      | [.word i, .bytes buf] => do some (.instr (.decodeNamed (← fieldOf 16 i) buf))
      | _ => none)
  else if mnemonic = "DECODE.ALL".toList then
    (match ops with
      | [.bytes buf] => some (.instr (.decodeAll (some buf)))
      | [.word w] => if w = "NONE".toList then some (.instr (.decodeAll none)) else none
      | _ => none)
  else if mnemonic = "EXECUTE".toList then
    (match ops with
      | [.word c, .word r, .bytes p] => do some (.instr (.execute (← fieldOf 8 c) (← fieldOf 8 r) p))
      | _ => none)
  else if mnemonic = "ABORT".toList then (if ops = [] then some (.instr .abort) else none)
  else if mnemonic = "STATUS".toList then (if ops = [] then some (.instr .status) else none)
  else if mnemonic = "DECODE".toList then
    (match ops with | [.word n, .bytes buf] => some (.pseudo (.decodeName n buf)) | _ => none)
  else if mnemonic = "POLL".toList then
    (match ops with
      | [.word c, .word r] => do some (.pseudo (.poll (← fieldOf 8 c) (← fieldOf 8 r)))
      | _ => none)
  else if mnemonic = "CHECK".toList then
    (match ops with
      | [.bytes bs, .word e] => do some (.pseudo (.check bs (← fieldOf 8 e)))
      | _ => none)
  else none

/-- A line's reading. -/
def parseLine (line : Text) : Option Line := do
  let toks ← lexLine line
  match toks with
  | [.word m] => lineOf m []
  | .word m :: rest => do lineOf m (← operands none false rest)
  | _ => none

/-- The instruction of a line, pseudo-instructions expanded over the schema (R93). -/
def Line.instrOf (schema : List SchemaEntry) : Line → Instr
  | .instr i => i
  | .pseudo p => p.expand schema

/-- The request a line encodes as (R92); `none` where the line is not of the syntax or has no encoding. -/
def assembleLine (schema : List SchemaEntry) (line : Text) : Option (List Byte) := do
  encode ((← parseLine line).instrOf schema)

/-! ### The disassembler -/

/-- A digit in upper case. -/
def upperDigit (d : Nat) : Char := if d < 10 then Char.ofNat (48 + d) else Char.ofNat (55 + d)

/-- `0x..`, two digits. -/
def byteText (b : Byte) : Text := ['0', 'x', upperDigit (b.toNat / 16), upperDigit (b.toNat % 16)]

/-- `0x....`, four digits. -/
def halfText (h : Half) : Text :=
  ['0', 'x', upperDigit (h.toNat / 4096), upperDigit (h.toNat / 256 % 16), upperDigit (h.toNat / 16 % 16),
    upperDigit (h.toNat % 16)]

/-- `[b0, b1, ...]`. -/
def seqText (bs : List Byte) : Text := '[' :: (List.intercalate [',', ' '] (bs.map byteText) ++ [']'])

/-- A line: the mnemonic, and the operands separated by `, `. -/
def lineText (mnemonic : Text) (ops : List Text) : Text :=
  if ops.isEmpty then mnemonic else mnemonic ++ ' ' :: List.intercalate [',', ' '] ops

/-- DECODE.BIT with `REPR = 00` is printed `DECODE.BIT`, and with any other `DECODE.BIT.<r>` (R92). -/
def bitMnemonic : Representation → Text
  | .unsigned => "DECODE.BIT".toList
  | .signed => "DECODE.BIT.S".toList
  | .hex => "DECODE.BIT.H".toList
  | .ascii => "DECODE.BIT.A".toList

/-- The line of an instruction (R92). -/
def disassemble : Instr → Text
  | .build c p => lineText "BUILD".toList [byteText c, seqText p]
  | .validate none bs => lineText "VALIDATE".toList [seqText bs]
  | .validate (some e) bs => lineText "VALIDATE".toList [seqText bs, byteText e]
  | .parse bs => lineText "PARSE".toList [seqText bs]
  | .decodeBit r bit off buf =>
    lineText (bitMnemonic r) [halfText off, [upperDigit bit.toNat], seqText buf]
  | .decodeByteU off buf => lineText "DECODE.BYTE.U".toList [halfText off, seqText buf]
  | .decodeByteS off buf => lineText "DECODE.BYTE.S".toList [halfText off, seqText buf]
  | .decodeByteH off buf => lineText "DECODE.BYTE.H".toList [halfText off, seqText buf]
  | .decodeByteA off buf => lineText "DECODE.BYTE.A".toList [halfText off, seqText buf]
  | .decodeMbU off len buf => lineText "DECODE.MB.U".toList [halfText off, byteText len, seqText buf]
  | .decodeMbS off len buf => lineText "DECODE.MB.S".toList [halfText off, byteText len, seqText buf]
  | .decodeMbH off len buf => lineText "DECODE.MB.H".toList [halfText off, byteText len, seqText buf]
  | .decodeMbA off len buf => lineText "DECODE.MB.A".toList [halfText off, byteText len, seqText buf]
  | .decodeNamed idx buf => lineText "DECODE.NAMED".toList [halfText idx, seqText buf]
  | .decodeAll none => lineText "DECODE.ALL".toList ["NONE".toList]
  | .decodeAll (some buf) => lineText "DECODE.ALL".toList [seqText buf]
  | .execute c r p => lineText "EXECUTE".toList [byteText c, byteText r, seqText p]
  | .abort => lineText "ABORT".toList []
  | .status => lineText "STATUS".toList []

end Sys2Proof.Machine
end

