-- ==== Sys2Proof/Machine/System.lean ====
section
/-! DEFINITION. A system of several block instances, one per link (10_state.md R35, 60_exceptions.md R212). -/

namespace Sys2Proof.Machine

/-- The instances, by link number. -/
structure System where
  instances : List State
deriving DecidableEq, Repr

/-- All instances hold the same SCHEMA (R31, R35). -/
def System.sharesSchema (y : System) : Prop :=
  ∀ a ∈ y.instances, ∀ b ∈ y.instances, a.params.schema = b.params.schema

/-- One step of the instance on link `k`, which touches no other (R35); `none` where there is no such
instance or its step gives no next state. -/
def System.stepAt (y : System) (k : Nat) : Option System :=
  match y.instances[k]? with
  | none => none
  | some s =>
    match step s with
    | .next t => some { instances := y.instances.set k t }
    | .fault _ => none
    | .refused _ => none

/-- `N_LINKS` instances, each right after reset (R212). -/
def System.reset : System := { instances := (List.range Config.nLinks).map State.start }

end Sys2Proof.Machine
end

