-- ==== Sys2Proof/Safety.lean ====
section
/-! DEFINITION. What counts as a safe run: the invariant every step keeps, and the caller obligations of
70_reset_and_hazards.md R244, which the block does not check. -/

namespace Sys2Proof.Machine

/-! ### The invariant -/

/-- What SEQ.WRITE_COUNT is against SEQ.ATTEMPT in each phase (R26, R135-R142, R143 (c)). -/
def countsAgree (q : Sequencer) : Prop :=
  match q.phase with
  | .idle => q.writeCount.toNat ≤ q.attempt.toNat ∧ q.attempt.toNat ≤ q.writeCount.toNat + 1
  | .flush | .send => q.attempt.toNat = q.writeCount.toNat + 1
  | .rxHdr | .rxBody | .check => q.attempt.toNat = q.writeCount.toNat ∧ 1 ≤ q.attempt.toNat

/-- What the receive registers hold in each phase (R29, R134, R138, R139). -/
def receiveAgrees (q : Sequencer) : Prop :=
  match q.phase with
  | .idle => q.rxHdr.length ≤ 2 ∧ q.rxBody.length ≤ 17 ∧ q.bodyLen.toNat ≤ 17
  | .flush | .send | .rxHdr => q.rxHdr = [] ∧ q.rxBody = [] ∧ q.bodyLen = 0
  | .rxBody => q.rxHdr.length = 2 ∧ q.rxBody = [] ∧ q.bodyLen.toNat = min (byteAt q.rxHdr 1).toNat 16 + 1
  | .check =>
    q.rxHdr.length = 2 ∧ q.bodyLen.toNat = min (byteAt q.rxHdr 1).toNat 16 + 1 ∧
      q.rxBody.length = q.bodyLen.toNat

/-- The sequencer registers hold legal values (R22-R29). -/
structure SeqInv (q : Sequencer) : Prop where
  attempt_le : q.attempt.toNat ≤ q.maxRetries.toNat + 1
  counts : countsAgree q
  receive : receiveAgrees q
  payload : q.respPayload.length ≤ 16
  payload_busy : q.phase ≠ .idle → q.respPayload = []
  frame : q.phase ≠ .idle → ∃ p, p.length ≤ 255 ∧ q.txFrame = build q.reqCmd p

/-- A result carries no partial value (R201), and an EXECUTE's payload has at most 16 bytes (R143 (b)). -/
def ResultOk (d : Delivery) : Prop :=
  (d.result.status ≠ .ok → d.result.value = none) ∧
  (d.port = .execute → ∀ v, d.result.value = some v → ∃ p, v = .bytes p ∧ p.length ≤ 16)

/-- A link primitive as the sequencer issues it: a read asks for 1 to 17 bytes and never returns more
than it asked for (R56, R139), and a write sends no byte beyond its frame (R57). -/
def LinkEventOk : LinkEvent → Prop
  | .flush _ => True
  | .write bs sent _ => sent ≤ bs.length
  | .read n answer => 1 ≤ n ∧ n ≤ 17 ∧ ∀ bs, answer = some bs → bs.length ≤ n

/-- The invariant of a block instance. -/
structure BlockInv (s : State) : Prop where
  schema : schemaLegal s.params.schema = true
  seq : SeqInv s.seq
  results : ∀ d ∈ s.results, ResultOk d
  link : ∀ e ∈ s.link.log, LinkEventOk e

/-! ### Caller obligations (R244) -/

/-- A BUILD or EXECUTE payload has at most 16 bytes (a), and its command is in COMMANDS (c). -/
def ObeysCaller (p : Params) : Instr → Prop
  | .build cmd payload => payload.length ≤ 16 ∧ cmd ∈ p.commands
  | .execute cmd _ payload => payload.length ≤ 16 ∧ cmd ∈ p.commands
  | _ => True

/-- A host that waits (R240): it issues no EXECUTE while one is in progress. -/
def WaitsForResult (i : Instr) (s : State) : Prop :=
  ∀ cmd ret payload, i = .execute cmd ret payload → busy s = false

/-- No reset is pending: claims about an EXECUTE are stated over such runs (R234). -/
def NoReset (s : State) : Prop := Event.reset ∉ s.inputs

/-- The pure operations (R60): every operation but EXECUTE, ABORT and STATUS. -/
def isPure : Instr → Bool
  | .execute _ _ _ => false
  | .abort => false
  | .status => false
  | _ => true

end Sys2Proof.Machine
end

