-- ==== Sys2Proof/Certificates/Slice0/Obligations.lean ====
section
/-! DEFINITION. The statements for the provers. They spell the spec's own formulas (a sum, an index, a
request written out byte by byte) beside the model's definitions. -/

namespace Sys2Proof.Cert

open Sys2Proof.Machine

/-! ### Words the statements share -/

/-- `s` after an operation that returned this result at once and changed nothing else: every register, the
link, the parameters and the pending inputs are as before. -/
def answers (s : State) (st : Status) (v : Option Value) : State :=
  { s with results := s.results ++ [⟨.immediate, ⟨st, v⟩⟩] }

/-- `s` after its EXECUTE ended with this result: `q` are the registers but for SEQ.LAST_STATUS and
SEQ.PHASE, `l` is the link. -/
def finishes (s : State) (q : Sequencer) (l : Link) (st : Status) (v : Option Value) : State :=
  { s with
    seq := { q with lastStatus := some st, phase := .idle }
    link := l
    results := s.results ++ [⟨.execute, ⟨st, v⟩⟩] }

/-- The low byte of a number. -/
def one (n : Nat) : Byte := BitVec.ofNat 8 n

/-- A number as two bytes, big-endian. -/
def two (n : Nat) : List Byte := [one (n / 256), one n]

/-- The code of `REPR` (R84). -/
def reprNumber : Representation → Nat
  | .unsigned => 0
  | .signed => 1
  | .hex => 2
  | .ascii => 3

/-- A request of the DECODE family: `10 KR OFF LEN M BUF` (R82). -/
def family (kr : Nat) (off : Half) (len : Byte) (buf : List Byte) : List Byte :=
  [0x10, one kr] ++ two off.toNat ++ [len] ++ two buf.length ++ buf

/-- `L`, byte 1 of a frame (R70). -/
def lengthByte (bs : List Byte) : Nat := (bs.getD 1 0).toNat

/-- The sum of bytes, modulo 256 (R14). -/
def byteSum (bs : List Byte) : Nat := (bs.map BitVec.toNat).sum % 256

/-- The checks (a), (b) and (c) of R104. -/
def FrameOk (bs : List Byte) : Prop :=
  3 ≤ bs.length ∧ 3 + lengthByte bs ≤ bs.length ∧
    byteSum (bs.take (2 + lengthByte bs)) = (bs.getD (2 + lengthByte bs) 0).toNat

/-- The payload of a frame: bytes `2 ..< 2+L` (R70). -/
def payloadOf (bs : List Byte) : List Byte := (bs.drop 2).take (lengthByte bs)

/-- The answer to a decode of one byte: the value of `buf[off]`, or ABSENT where there is no such byte
(R164). -/
def byteAnswer (s : State) (off : Half) (buf : List Byte) (f : Byte → DecodedValue) : State :=
  match buf[off.toNat]? with
  | some x => answers s .ok (some (.decoded (f x)))
  | none => answers s .absent none

/-- The answer to a decode of `len` bytes: the value of `buf[off ..< off+len]`, or ABSENT where they are
not all inside (R164). -/
def fieldAnswer (s : State) (off : Half) (len : Byte) (buf : List Byte) (f : List Byte → DecodedValue) :
    State :=
  if off.toNat + len.toNat ≤ buf.length then
    answers s .ok (some (.decoded (f ((buf.drop off.toNat).take len.toNat))))
  else answers s .absent none

/-- `be_uint` as R14 writes it: the sum of `bs[i] * 256^(|bs|-1-i)`. -/
def bigEndian (bs : List Byte) : Nat :=
  ((List.range bs.length).map fun i => (bs.getD i 0).toNat * 256 ^ (bs.length - 1 - i)).sum

/-- The hex digit of a number below 16 (R173). -/
def digit (n : Nat) : Char := "0123456789abcdef".toList.getD n '?'

/-- The answer that a decoded value or ABSENT stands for (R177, R178). -/
def optionAnswer (s : State) : Option DecodedValue → State
  | some v => answers s .ok (some (.decoded v))
  | none => answers s .absent none

/-- The inline descriptor operation of a schema entry (R86, R87). -/
def inlineOf (e : SchemaEntry) (buf : List Byte) : Instr :=
  match e.kind, e.representation with
  | .bit i, r => .decodeBit r i e.offset buf
  | .byte, .unsigned => .decodeByteU e.offset buf
  | .byte, .signed => .decodeByteS e.offset buf
  | .byte, .hex => .decodeByteH e.offset buf
  | .byte, .ascii => .decodeByteA e.offset buf
  | .multibyte n, .unsigned => .decodeMbU e.offset n buf
  | .multibyte n, .signed => .decodeMbS e.offset n buf
  | .multibyte n, .hex => .decodeMbH e.offset n buf
  | .multibyte n, .ascii => .decodeMbA e.offset n buf

/-- The instruction has a payload of over 255 bytes or a buffer of over 65535 (R91). -/
def Oversize : Instr → Prop
  | .build _ p => 255 < p.length
  | .validate _ b => 65535 < b.length
  | .parse b => 65535 < b.length
  | .decodeBit _ _ _ b => 65535 < b.length
  | .decodeByteU _ b => 65535 < b.length
  | .decodeByteS _ b => 65535 < b.length
  | .decodeByteH _ b => 65535 < b.length
  | .decodeByteA _ b => 65535 < b.length
  | .decodeMbU _ _ b => 65535 < b.length
  | .decodeMbS _ _ b => 65535 < b.length
  | .decodeMbH _ _ b => 65535 < b.length
  | .decodeMbA _ _ b => 65535 < b.length
  | .decodeNamed _ b => 65535 < b.length
  | .decodeAll none => False
  | .decodeAll (some b) => 65535 < b.length
  | .execute _ _ p => 255 < p.length
  | .abort => False
  | .status => False

/-- The assigned OPSEL values (R81). -/
def assigned (op : Nat) : Prop := op ∈ [0x01, 0x02, 0x03, 0x10, 0x11, 0x12, 0x20, 0x2F, 0x30]

/-- Byte `k` of a request as a number; 0 where there is none. -/
def at_ (r : List Byte) (k : Nat) : Nat := (r.getD k 0).toNat

/-- The total length of R82 for the request's OPSEL and count field. -/
def totalLength (r : List Byte) : Nat :=
  if at_ r 0 = 0x01 then 4 + at_ r 3
  else if at_ r 0 = 0x02 then 5 + (256 * at_ r 3 + at_ r 4)
  else if at_ r 0 = 0x03 then 4 + (256 * at_ r 2 + at_ r 3)
  else if at_ r 0 = 0x10 then 7 + (256 * at_ r 5 + at_ r 6)
  else if at_ r 0 = 0x11 then 6 + (256 * at_ r 4 + at_ r 5)
  else if at_ r 0 = 0x12 then 4 + (256 * at_ r 2 + at_ r 3)
  else if at_ r 0 = 0x20 then 5 + at_ r 4
  else 2

/-- The reasons of R90 item 2, in its order, for a request with an assigned OPSEL. -/
def MalformedReason (r : List Byte) : Prop :=
  r.length ≠ totalLength r ∨
  (at_ r 0 ∈ [0x01, 0x03, 0x11, 0x20, 0x2F, 0x30] ∧ at_ r 1 ≠ 0) ∨
  (at_ r 0 ∈ [0x02, 0x12] ∧ at_ r 1 / 2 ≠ 0) ∨
  (at_ r 0 = 0x10 ∧ at_ r 1 / 8 % 2 = 1) ∨
  (at_ r 0 = 0x10 ∧ at_ r 1 / 64 = 3) ∨
  (at_ r 0 = 0x10 ∧ at_ r 1 / 64 ∈ [1, 2] ∧ at_ r 1 % 8 ≠ 0) ∨
  (at_ r 0 = 0x10 ∧ at_ r 1 / 64 ∈ [0, 1] ∧ at_ r 4 ≠ 0) ∨
  (at_ r 0 = 0x10 ∧ at_ r 1 / 64 = 2 ∧ at_ r 4 = 0) ∨
  (at_ r 0 = 0x02 ∧ at_ r 1 % 2 = 0 ∧ at_ r 2 ≠ 0) ∨
  (at_ r 0 = 0x12 ∧ at_ r 1 % 2 = 0 ∧ 256 * at_ r 2 + at_ r 3 ≠ 0)

/-- The code of SEQ.PHASE (R22). -/
def phaseNumber : Phase → Nat
  | .idle => 0
  | .flush => 1
  | .send => 2
  | .rxHdr => 3
  | .rxBody => 4
  | .check => 5

/-- The code of SEQ.LAST_FAIL (R27). -/
def failNumber : FailCode → Nat
  | .none => 0
  | .shortHeader => 1
  | .shortBody => 2
  | .invalidFrame => 3

/-- The value of SEQ.LAST_STATUS (R28, R200). -/
def statusNumber : Option Status → Nat
  | none => 0xFF
  | some .ok => 0x00
  | some .invalid => 0x01
  | some .absent => 0x02
  | some .retriesExhausted => 0x03
  | some .transportFailure => 0x04
  | some .preconditionViolation => 0x05
  | some .illegalOperation => 0x06
  | some .malformedRequest => 0x07
  | some .busy => 0x08
  | some .aborted => 0x09

/-- The link primitive a phase performs, with any answer (R58). -/
def primitiveOf (q : Sequencer) (e : LinkEvent) : Prop :=
  match q.phase with
  | .idle => False
  | .flush => ∃ ok, e = .flush ok
  | .send => ∃ n ok, e = .write q.txFrame n ok
  | .rxHdr => ∃ a, e = .read 2 a
  | .rxBody => ∃ a, e = .read q.bodyLen.toNat a
  | .check => False

/-- The phases a sequencer step may lead to (R135-R142). -/
def successors : Phase → List Phase
  | .idle => [.idle]
  | .flush => [.send, .idle]
  | .send => [.rxHdr, .idle]
  | .rxHdr => [.rxBody, .flush, .idle]
  | .rxBody => [.check, .flush, .idle]
  | .check => [.flush, .idle]

end Sys2Proof.Cert

open Sys2Proof Sys2Proof.Machine Sys2Proof.Cert

/-! ### Frame codec (40_frame_codec.md) -/

/-- R103, with R101 and R102: BUILD of any payload of 0..255 bytes, its request and its result. -/
def Obligations.BuildReturnsTheFrame : Prop :=
  ∀ (s : State) (cmd : Byte) (p : List Byte), p.length ≤ 255 →
    decode ([0x01, 0x00, cmd, one p.length] ++ p) = .instr (.build cmd p) ∧
    exec (.build cmd p) s = .next (answers s .ok (some (.bytes
      ([cmd, one p.length] ++ p ++ [one (cmd.toNat + p.length + (p.map BitVec.toNat).sum)]))))

/-- R107 and R104: VALIDATE's two request forms, and its Boolean. -/
def Obligations.ValidateAnswersTheFourChecks : Prop :=
  ∀ (s : State) (bs : List Byte), bs.length ≤ 65535 →
    decode ([0x02, 0x00, 0x00] ++ two bs.length ++ bs) = .instr (.validate none bs) ∧
    (∀ e, decode ([0x02, 0x01, e] ++ two bs.length ++ bs) = .instr (.validate (some e) bs)) ∧
    ∀ exp, ∃ b, exec (.validate exp bs) s = .next (answers s .ok (some (.bool b))) ∧
      (b = true ↔ FrameOk bs ∧ ∀ e, exp = some e → bs.getD 0 0 = e)

/-- R110 and R109: PARSE's request, its (command, payload), and INVALID, which carries no value. -/
def Obligations.ParseReturnsCommandAndPayload : Prop :=
  ∀ (s : State) (bs : List Byte), bs.length ≤ 65535 →
    decode ([0x03, 0x00] ++ two bs.length ++ bs) = .instr (.parse bs) ∧
    (FrameOk bs → exec (.parse bs) s =
      .next (answers s .ok (some (.frame (bs.getD 0 0) (payloadOf bs))))) ∧
    (¬ FrameOk bs → exec (.parse bs) s = .next (answers s .invalid none))

/-- 40_frame_codec.md section 3, the properties the spec derives there as (a) and (e): a built frame
validates, with its own command as the expectation and with none, and its checksum ignores the order of
the payload. -/
def Obligations.BuiltFramesValidate : Prop :=
  ∀ (cmd : Byte) (p : List Byte), p.length ≤ 255 →
    validate (build cmd p) (some cmd) = true ∧ validate (build cmd p) none = true ∧
    ∀ q, p.Perm q → (build cmd q).getLast? = (build cmd p).getLast?

/-- 40_frame_codec.md section 3, the properties the spec derives there as (b) and (c): a single-bit flip
of any byte of a built frame but the length byte is detected. -/
def Obligations.SingleBitFlipsAreDetected : Prop :=
  ∀ (cmd : Byte) (p : List Byte) (exp : Option Byte) (i k : Nat),
    p.length ≤ 255 → i < p.length + 3 → i ≠ 1 → k < 8 →
    validate ((build cmd p).modify i fun b => b ^^^ one (2 ^ k)) exp = false

/-- 40_frame_codec.md section 4, the properties the spec derives there: parsing a built frame gives its
command and payload, a frame cut by its last byte is invalid, and parsing fails iff validation does. -/
def Obligations.ParseInvertsBuild : Prop :=
  (∀ (cmd : Byte) (p : List Byte), p.length ≤ 255 → parse (build cmd p) = some (cmd, p)) ∧
  (∀ f : List Byte, FrameOk f → f.length = 3 + lengthByte f → parse f.dropLast = none) ∧
  (∀ bs : List Byte, parse bs ≠ none ↔ validate bs none = true)

/-! ### Calibration decoder (42_calibration_decoder.md) -/

/-- R165 and R166: DECODE.BIT in each of its four encodings. -/
def Obligations.DecodeBitReadsOneBit : Prop :=
  ∀ (s : State) (r : Representation) (bit : BitVec 3) (off : Half) (buf : List Byte), buf.length ≤ 65535 →
    decode (family (16 * reprNumber r + bit.toNat) off 0 buf) = .instr (.decodeBit r bit off buf) ∧
    exec (.decodeBit r bit off buf) s =
      .next (byteAnswer s off buf fun x => .uint (x.toNat / 2 ^ bit.toNat % 2))

/-- R167, R169, R170: a Byte that is Unsigned, Hex or Ascii decodes to the unsigned number. -/
def Obligations.DecodeByteReadsUnsigned : Prop :=
  ∀ (s : State) (off : Half) (buf : List Byte), buf.length ≤ 65535 →
    decode (family 0x40 off 0 buf) = .instr (.decodeByteU off buf) ∧
    decode (family 0x60 off 0 buf) = .instr (.decodeByteH off buf) ∧
    decode (family 0x70 off 0 buf) = .instr (.decodeByteA off buf) ∧
    exec (.decodeByteU off buf) s = .next (byteAnswer s off buf fun x => .uint x.toNat) ∧
    exec (.decodeByteH off buf) s = .next (byteAnswer s off buf fun x => .uint x.toNat) ∧
    exec (.decodeByteA off buf) s = .next (byteAnswer s off buf fun x => .uint x.toNat)

/-- R168: a Signed Byte decodes to its two's-complement value, tagged as signed. -/
def Obligations.DecodeByteSignedIsTwosComplement : Prop :=
  ∀ (s : State) (off : Half) (buf : List Byte), buf.length ≤ 65535 →
    decode (family 0x50 off 0 buf) = .instr (.decodeByteS off buf) ∧
    exec (.decodeByteS off buf) s = .next (byteAnswer s off buf fun x =>
      .sint (if x.toNat < 128 then (x.toNat : Int) else (x.toNat : Int) - 256))

/-- R171 and R172: a Multibyte that is Unsigned or Signed decodes to the exact big-endian unsigned
integer of its bytes. -/
def Obligations.DecodeMultibyteIsBigEndian : Prop :=
  ∀ (s : State) (off : Half) (len : Byte) (buf : List Byte), len ≠ 0 → buf.length ≤ 65535 →
    decode (family 0x80 off len buf) = .instr (.decodeMbU off len buf) ∧
    decode (family 0x90 off len buf) = .instr (.decodeMbS off len buf) ∧
    exec (.decodeMbU off len buf) s = .next (fieldAnswer s off len buf fun x => .uint (bigEndian x)) ∧
    exec (.decodeMbS off len buf) s = .next (fieldAnswer s off len buf fun x => .uint (bigEndian x))

/-- R173: a Hex Multibyte decodes to two lowercase digits per byte, high nibble first. -/
def Obligations.DecodeMultibyteHexRendersDigits : Prop :=
  ∀ (s : State) (off : Half) (len : Byte) (buf : List Byte), len ≠ 0 → buf.length ≤ 65535 →
    decode (family 0xA0 off len buf) = .instr (.decodeMbH off len buf) ∧
    exec (.decodeMbH off len buf) s = .next (fieldAnswer s off len buf fun x =>
      .hex (x.flatMap fun b => [digit (b.toNat / 16), digit (b.toNat % 16)]))

/-- 42_calibration_decoder.md section 4, DECODE.MB.A: the text of the field without its trailing NUL run,
ABSENT out of bounds, and the three choices of ASCII_HIGH for a byte of 0x80 or above; under `draw` the
text is some text. That the run removed is the whole trailing run (the spec's comment, corner cases and
examples) and not what the words "largest k" say is the model's reading, log 13. -/
def Obligations.DecodeMultibyteAsciiStripsNuls : Prop :=
  ∀ (s : State) (off : Half) (len : Byte) (buf : List Byte), len ≠ 0 → buf.length ≤ 65535 →
    decode (family 0xB0 off len buf) = .instr (.decodeMbA off len buf) ∧
    (buf.length < off.toNat + len.toNat →
      exec (.decodeMbA off len buf) s = .next (answers s .absent none)) ∧
    ∀ (y : List Byte) (k : Nat), off.toNat + len.toNat ≤ buf.length →
      (buf.drop off.toNat).take len.toNat = y ++ List.replicate k 0 → (y = [] ∨ y.getLast? ≠ some 0) →
      ((∀ b ∈ y, b.toNat < 0x80) ∨ s.params.asciiHigh = .latin1 → exec (.decodeMbA off len buf) s =
        .next (answers s .ok (some (.decoded (.ascii (y.map fun b => Char.ofNat b.toNat)))))) ∧
      ((∃ b ∈ y, 0x80 ≤ b.toNat) → s.params.asciiHigh = .absent →
        exec (.decodeMbA off len buf) s = .next (answers s .absent none)) ∧
      ((∃ b ∈ y, 0x80 ≤ b.toNat) → s.params.asciiHigh = .draw →
        ∃ t, exec (.decodeMbA off len buf) s = .next (answers s .ok (some (.decoded (.ascii t)))))

/-- 42_calibration_decoder.md section 1: an inline Multibyte descriptor of length 0 is MALFORMED_REQUEST,
as a request and as an operation. -/
def Obligations.ZeroLengthMultibyteIsMalformed : Prop :=
  ∀ (s : State) (off : Half) (buf : List Byte), buf.length ≤ 65535 →
    (∀ kr ∈ [0x80, 0x90, 0xA0, 0xB0], decode (family kr off 0 buf) = .malformed) ∧
    ∀ i ∈ [Instr.decodeMbU off 0 buf, .decodeMbS off 0 buf, .decodeMbH off 0 buf, .decodeMbA off 0 buf],
      exec i s = .next (answers s .malformedRequest none)

/-- R177: `decode_field` of an entry is what the operation of its kind and representation answers,
whatever its name, valid range and read-only flag are. -/
def Obligations.DecodeFieldFollowsKindAndRepresentation : Prop :=
  ∀ (s : State) (e : SchemaEntry) (buf : List Byte), e.wf = true → buf.length ≤ 65535 →
    exec (inlineOf e buf) s = .next (optionAnswer s (decodeField s.params.asciiHigh buf e))

/-- R178: DECODE.NAMED of a known index is `decode_field` of the entry, of an unknown one ABSENT. -/
def Obligations.DecodeNamedReadsTheSchema : Prop :=
  ∀ (s : State) (idx : Half) (buf : List Byte), buf.length ≤ 65535 →
    decode ([0x11, 0x00] ++ two idx.toNat ++ two buf.length ++ buf) = .instr (.decodeNamed idx buf) ∧
    (s.params.schema.length ≤ idx.toNat →
      exec (.decodeNamed idx buf) s = .next (answers s .absent none)) ∧
    ∀ e, s.params.schema[idx.toNat]? = some e →
      exec (.decodeNamed idx buf) s = .next (optionAnswer s (decodeField s.params.asciiHigh buf e))

/-- R179: DECODE.ALL's two request forms, and its view, built entry by entry in schema order. -/
def Obligations.DecodeAllCollectsPresentFields : Prop :=
  ∀ (s : State) (buf : List Byte), buf.length ≤ 65535 →
    decode [0x12, 0x00, 0x00, 0x00] = .instr (.decodeAll none) ∧
    decode ([0x12, 0x01] ++ two buf.length ++ buf) = .instr (.decodeAll (some buf)) ∧
    exec (.decodeAll none) s = .next (answers s .ok (some (.view []))) ∧
    exec (.decodeAll (some buf)) s = .next (answers s .ok (some (.view
      (s.params.schema.foldl (fun view e =>
        match decodeField s.params.asciiHigh buf e with
        | some v => view ++ [(e.name, v)]
        | none => view) []))))

/-- 42_calibration_decoder.md section 5, DECODE.ALL's corner cases: an empty buffer gives an empty view,
and under a legal schema no name stands twice in a view. -/
def Obligations.ViewsOfLegalSchemas : Prop :=
  ∀ (p : Params) (buf : List Byte), schemaWf p.schema = true →
    decodeAll p (some []) = [] ∧ ((decodeAll p (some buf)).map Prod.fst).Nodup

/-- 42_calibration_decoder.md section 5, the monotonicity the spec derives there as (b): a longer buffer
keeps every decoded value; the one exception is an Ascii field with high bytes under ASCII_HIGH = draw. -/
def Obligations.DecodedFieldsSurviveLongerBuffers : Prop :=
  ∀ (ah : AsciiHigh) (buf ext : List Byte) (e : SchemaEntry) (v : DecodedValue),
    decodeField ah buf e = some v →
    decodeField ah (buf ++ ext) e = some v ∨
      (ah = .draw ∧ e.representation = .ascii ∧ ∃ n, e.kind = .multibyte n ∧
        ∃ b ∈ (buf.drop e.offset.toNat).take n.toNat, 0x80 ≤ b.toNat)

/-! ### All operations -/

/-- 20_memory.md section 4 and 00_scope.md section 5: a pure operation completes with a result that is a
function of its operands and the parameters, and leaves everything else as it is, while the sequencer is
busy too. -/
def Obligations.PureOperationsOnlyAnswer : Prop :=
  ∀ (i : Instr) (p : Params), isPure i = true → i.wf = true →
    ∃ st v, ∀ s : State, s.params = p → exec i s = .next (answers s st v)

/-- 20_memory.md section 4: a pure operation commutes with a sequencer step; only the order in which the
host receives the results may differ. -/
def Obligations.PureOperationsCommuteWithTheSequencer : Prop :=
  ∀ (i : Instr) (d : LinkDraw) (s t u : State), isPure i = true →
    exec i s = .next t → exec i (seqStep d s) = .next u →
    (seqStep d t).seq = u.seq ∧ (seqStep d t).link = u.link ∧ (seqStep d t).params = u.params ∧
      (seqStep d t).inputs = u.inputs ∧ (seqStep d t).results.Perm u.results

/-- 30_encoding.md section 3 and 00_scope.md section 5: what cannot be encoded has no request and is refused;
every other instruction completes. That the meaning itself answers the refusal is the model's reading, log
10. -/
def Obligations.OversizeOperandsAreRefused : Prop :=
  ∀ (i : Instr) (s : State),
    (Oversize i → encode i = none ∧ exec i s = .refused .unencodable) ∧
    (¬ Oversize i → ∃ t, exec i s = .next t)

/-! ### EXECUTE, ABORT, STATUS (41_request_sequencer.md) -/

/-- R131: an EXECUTE while one is in progress answers BUSY and changes nothing else. -/
def Obligations.ExecuteWhileBusyAnswersBusy : Prop :=
  ∀ (s : State) (cmd ret : Byte) (p : List Byte), s.seq.phase ≠ .idle → p.length ≤ 255 →
    exec (.execute cmd ret p) s = .next (answers s .busy none)

/-- R133: a config write of another length than 13 is latched and completes at once, with no attempt and
no link primitive. What SEQ.TX_FRAME holds then is left open here (log 14). -/
def Obligations.ExecuteChecksConfigWriteLength : Prop :=
  ∀ (s : State) (ret : Byte) (p : List Byte), s.seq.phase = .idle → p.length ≤ 255 → p.length ≠ 13 →
    ∃ tx, exec (.execute s.params.cmdConfigWrite ret p) s = .next (finishes s
      { phase := .idle, attempt := 0, maxRetries := ret, reqCmd := s.params.cmdConfigWrite, writeCount := 0,
        lastStatus := none, lastFail := .none, bodyLen := 0, txFrame := tx, rxHdr := [], rxBody := [],
        respPayload := [] } s.link .preconditionViolation none)

/-- R132: an EXECUTE accepted while idle latches its operands, builds its frame once and
enters the first attempt's FLUSH; every sequencer register is given, SEQ.LAST_STATUS is kept. -/
def Obligations.ExecuteStartsTheFirstAttempt : Prop :=
  ∀ (s : State) (cmd ret : Byte) (p : List Byte), s.seq.phase = .idle → p.length ≤ 255 →
    (cmd ≠ s.params.cmdConfigWrite ∨ p.length = 13) →
    decode ([0x20, 0x00, cmd, ret, one p.length] ++ p) = .instr (.execute cmd ret p) ∧
    exec (.execute cmd ret p) s = .next { s with seq :=
      { phase := .flush, attempt := 1, maxRetries := ret, reqCmd := cmd, writeCount := 0,
        lastStatus := s.seq.lastStatus, lastFail := .none, bodyLen := 0,
        txFrame := [cmd, one p.length] ++ p ++ [one (cmd.toNat + p.length + (p.map BitVec.toNat).sum)],
        rxHdr := [], rxBody := [], respPayload := [] } }

/-- R144: ABORT while idle only answers OK; while busy it ends the EXECUTE in progress with ABORTED and
answers OK, issues no link primitive and changes no other register. The order of the two results is left
open here (log 15). -/
def Obligations.AbortEndsTheExecute : Prop :=
  ∀ s : State, decode [0x2F, 0x00] = .instr .abort ∧
    (s.seq.phase = .idle → exec .abort s = .next (answers s .ok none)) ∧
    (s.seq.phase ≠ .idle → ∃ rs : List Delivery,
      rs.Perm [⟨.execute, ⟨.aborted, none⟩⟩, ⟨.immediate, ⟨.ok, none⟩⟩] ∧
      exec .abort s = .next { s with
        seq := { s.seq with lastStatus := some .aborted, phase := .idle }
        results := s.results ++ rs })

/-- R145, with the codes of R22, R27, R28 and R200: STATUS returns the ten bytes of the register record
and changes nothing else. -/
def Obligations.StatusReturnsTheRegisterRecord : Prop :=
  ∀ s : State, decode [0x30, 0x00] = .instr .status ∧
    exec .status s = .next (answers s .ok (some (.bytes
      ([one (phaseNumber s.seq.phase)] ++ two s.seq.attempt.toNat ++ [s.seq.maxRetries, s.seq.reqCmd] ++
        two s.seq.writeCount.toNat ++
        [one (statusNumber s.seq.lastStatus), one (failNumber s.seq.lastFail), s.seq.bodyLen]))))

/-! ### The attempt cycle (41_request_sequencer.md section 2) -/

/-- R134: an attempt start ends the EXECUTE where all attempts are made, and else begins the next. -/
def Obligations.AttemptStartIsBounded : Prop :=
  ∀ s : State,
    (s.seq.attempt.toNat = s.seq.maxRetries.toNat + 1 →
      attemptStart s = finishes s s.seq s.link .retriesExhausted none) ∧
    (s.seq.attempt.toNat ≠ s.seq.maxRetries.toNat + 1 →
      attemptStart s = { s with seq := { s.seq with
        attempt := s.seq.attempt + 1, rxHdr := [], rxBody := [], bodyLen := 0, phase := .flush } })

/-- R135: the FLUSH step. What LINK.RX holds after a failed flush is left open here (log 11). -/
def Obligations.FlushStepEmptiesTheReceiveBuffer : Prop :=
  ∀ (d : LinkDraw) (s : State), s.seq.phase = .flush →
    (s.link.ready = true ∧ d.ok = true → seqStep d s = { s with
      link := { s.link with rx := [], log := s.link.log ++ [.flush true] }
      seq := { s.seq with phase := .send } }) ∧
    (¬ (s.link.ready = true ∧ d.ok = true) → ∃ rx, seqStep d s = finishes s s.seq
      { s.link with rx := rx, log := s.link.log ++ [.flush false] } .transportFailure none)

/-- 41_request_sequencer.md section 2, the SEND step: the write is counted whether it succeeds or not, and the
built frame is transmitted. That the draw's bytes are in LINK.RX after a write that succeeds is the model's
choice, log 17; how much of it a failed write transmitted is left open here (log 11). -/
def Obligations.SendStepTransmitsTheFrame : Prop :=
  ∀ (d : LinkDraw) (s : State), s.seq.phase = .send →
    (s.link.ready = true ∧ d.ok = true →
      transmitStream (seqStep d s).link = transmitStream s.link ++ s.seq.txFrame ∧
      seqStep d s = { s with
        link := { s.link with
          rx := s.link.rx ++ d.arrived
          log := s.link.log ++ [.write s.seq.txFrame s.seq.txFrame.length true] }
        seq := { s.seq with writeCount := s.seq.writeCount + 1, phase := .rxHdr } }) ∧
    (¬ (s.link.ready = true ∧ d.ok = true) → ∃ rx n, n ≤ s.seq.txFrame.length ∧
      seqStep d s = finishes s { s.seq with writeCount := s.seq.writeCount + 1 }
        { s.link with rx := rx, log := s.link.log ++ [.write s.seq.txFrame n false] } .transportFailure none)

/-- 41_request_sequencer.md section 2, the RX_HDR step. The bytes read are the first ones of LINK.RX, as many
as the link's answer says and at most two; that the draw's own bytes are in LINK.RX by then is the model's
choice, log 17. -/
def Obligations.HeaderStepReadsTwoBytes : Prop :=
  ∀ (d : LinkDraw) (s : State), s.seq.phase = .rxHdr →
    let rx := s.link.rx ++ d.arrived
    let h := rx.take (min d.count 2)
    let rest := rx.drop (min d.count 2)
    (s.link.ready = true ∧ d.ok = true →
      (h.length < 2 → seqStep d s = attemptStart { s with
        link := { s.link with rx := rest, log := s.link.log ++ [.read 2 (some h)] }
        seq := { s.seq with rxHdr := h, lastFail := .shortHeader } }) ∧
      (h.length = 2 → seqStep d s = { s with
        link := { s.link with rx := rest, log := s.link.log ++ [.read 2 (some h)] }
        seq := { s.seq with rxHdr := h, bodyLen := one (min (lengthByte h) 16 + 1), phase := .rxBody } })) ∧
    (¬ (s.link.ready = true ∧ d.ok = true) → ∃ rx, seqStep d s = finishes s s.seq
      { s.link with rx := rx, log := s.link.log ++ [.read 2 none] } .transportFailure none)

/-- 41_request_sequencer.md section 2, the RX_BODY step. The bytes read are the first ones of LINK.RX, as many
as the link's answer says and at most SEQ.BODY_LEN; that the draw's own bytes are in LINK.RX by then is the
model's choice, log 17. -/
def Obligations.BodyStepReadsTheClampedLength : Prop :=
  ∀ (d : LinkDraw) (s : State), s.seq.phase = .rxBody →
    let n := s.seq.bodyLen.toNat
    let rx := s.link.rx ++ d.arrived
    let b := rx.take (min d.count n)
    let rest := rx.drop (min d.count n)
    (s.link.ready = true ∧ d.ok = true →
      (b.length < n → seqStep d s = attemptStart { s with
        link := { s.link with rx := rest, log := s.link.log ++ [.read n (some b)] }
        seq := { s.seq with rxBody := b, lastFail := .shortBody } }) ∧
      (b.length = n → seqStep d s = { s with
        link := { s.link with rx := rest, log := s.link.log ++ [.read n (some b)] }
        seq := { s.seq with rxBody := b, phase := .check } })) ∧
    (¬ (s.link.ready = true ∧ d.ok = true) → ∃ rx, seqStep d s = finishes s s.seq
      { s.link with rx := rx, log := s.link.log ++ [.read n none] } .transportFailure none)

/-- R137, R138, R139: the SEND, RX_HDR and RX_BODY steps in terms of what the link primitive returns. -/
def Obligations.LinkAnswersDriveTheSteps : Prop :=
  ∀ (d : LinkDraw) (s : State) (a : LinkAnswer) (l : Link),
    (s.seq.phase = .send → linkWrite s.seq.txFrame d s.link = (a, l) →
      let q := { s.seq with writeCount := s.seq.writeCount + 1 }
      (a = .xportErr → seqStep d s = finishes s q l .transportFailure none) ∧
      (a ≠ .xportErr → seqStep d s = { s with link := l, seq := { q with phase := .rxHdr } })) ∧
    (s.seq.phase = .rxHdr → linkRead 2 d s.link = (a, l) →
      (a = .xportErr → seqStep d s = finishes s s.seq l .transportFailure none) ∧
      ∀ h, a = .ok h →
        (h.length < 2 → seqStep d s = attemptStart { s with
          link := l, seq := { s.seq with rxHdr := h, lastFail := .shortHeader } }) ∧
        (2 ≤ h.length → seqStep d s = { s with link := l, seq := { s.seq with
          rxHdr := h, bodyLen := one (min (lengthByte h) 16 + 1), phase := .rxBody } })) ∧
    (s.seq.phase = .rxBody → linkRead s.seq.bodyLen.toNat d s.link = (a, l) →
      (a = .xportErr → seqStep d s = finishes s s.seq l .transportFailure none) ∧
      ∀ b, a = .ok b →
        (b.length < s.seq.bodyLen.toNat → seqStep d s = attemptStart { s with
          link := l, seq := { s.seq with rxBody := b, lastFail := .shortBody } }) ∧
        (s.seq.bodyLen.toNat ≤ b.length → seqStep d s = { s with
          link := l, seq := { s.seq with rxBody := b, phase := .check } }))

/-- R140, R141, R142: the CHECK step, on the frame read and the request's own command byte. -/
def Obligations.CheckStepAcceptsOrFailsTheAttempt : Prop :=
  ∀ (d : LinkDraw) (s : State), s.seq.phase = .check →
    let f := s.seq.rxHdr ++ s.seq.rxBody
    (FrameOk f ∧ f.getD 0 0 = s.seq.reqCmd → seqStep d s = finishes s
      { s.seq with respPayload := payloadOf f } s.link .ok (some (.bytes (payloadOf f)))) ∧
    (¬ (FrameOk f ∧ f.getD 0 0 = s.seq.reqCmd) →
      seqStep d s = attemptStart { s with seq := { s.seq with lastFail := .invalidFrame } })

/-- R136: whatever phase the primitive failed in, the EXECUTE ends with TRANSPORT_FAILURE and starts no
attempt. -/
def Obligations.TransportFailureIsNeverRetried : Prop :=
  ∀ (d : LinkDraw) (s : State), s.seq.phase ∈ [Phase.flush, .send, .rxHdr, .rxBody] →
    ¬ (s.link.ready = true ∧ d.ok = true) →
    (seqStep d s).seq.phase = .idle ∧ (seqStep d s).seq.lastStatus = some .transportFailure ∧
    (seqStep d s).seq.attempt = s.seq.attempt ∧
    (seqStep d s).results = s.results ++ [⟨.execute, ⟨.transportFailure, none⟩⟩]

/-- 41_request_sequencer.md section 2, the property the spec derives there as (a): a header that declares
more than 16 never succeeds; the attempt fails as an invalid frame. -/
def Obligations.OverlongHeadersNeverSucceed : Prop :=
  ∀ (d : LinkDraw) (s : State), SeqInv s.seq → s.seq.phase = .check → 16 < lengthByte s.seq.rxHdr →
    seqStep d s = failAttempt .invalidFrame s

/-- 41_request_sequencer.md section 2, the property the spec derives there as (b): a payload returned with
OK has at most 16 bytes, and the frame read is the built frame of the request's command and that payload. -/
def Obligations.AcceptedResponsesAreBuiltFrames : Prop :=
  ∀ (d : LinkDraw) (s : State) (p : List Byte), SeqInv s.seq → s.seq.phase ≠ .idle →
    (seqStep d s).results = s.results ++ [⟨.execute, ⟨.ok, some (.bytes p)⟩⟩] →
    s.seq.phase = .check ∧ p.length ≤ 16 ∧ s.seq.rxHdr ++ s.seq.rxBody = build s.seq.reqCmd p

/-- 41_request_sequencer.md section 2, the property the spec derives there as (c): the counts at a
completion by a sequencer step or by ABORT. -/
def Obligations.CountsAtCompletion : Prop :=
  ∀ (d : LinkDraw) (s : State), SeqInv s.seq → s.seq.phase ≠ .idle →
    (let q := (seqStep d s).seq
     q.phase = .idle → q.attempt.toNat ≤ q.maxRetries.toNat + 1 ∧
      (q.lastStatus = some .ok ∧ q.writeCount = q.attempt ∨
       q.lastStatus = some .retriesExhausted ∧ q.writeCount = q.attempt ∧
         q.attempt.toNat = q.maxRetries.toNat + 1 ∨
       q.lastStatus = some .transportFailure ∧ s.seq.phase = .flush ∧
         q.attempt.toNat = q.writeCount.toNat + 1 ∨
       q.lastStatus = some .transportFailure ∧ s.seq.phase ≠ .flush ∧ q.writeCount = q.attempt)) ∧
    (let q := (abortRequest s).seq
     q.lastStatus = some .aborted ∧
      (s.seq.phase ∈ [Phase.flush, .send] → q.attempt.toNat = q.writeCount.toNat + 1) ∧
      (s.seq.phase ∉ [Phase.flush, .send] → q.writeCount = q.attempt))

/-- 41_request_sequencer.md section 1 and 20_memory.md section 4: the phases follow each other in the
order flush, write, header read, body read, check. -/
def Obligations.PhasesFollowInOrder : Prop :=
  ∀ (d : LinkDraw) (s : State), (seqStep d s).seq.phase ∈ successors s.seq.phase

/-- 20_memory.md section 3: a read that succeeds returns at most the bytes asked for and takes them from the
front of LINK.RX; any bytes that agree with LINK.RX may be its answer on an open link, and so may a failure
of each primitive; a flush that succeeds leaves LINK.RX empty; a write that succeeds transmits its bytes in
order; each is recorded once. That the draw's bytes come into LINK.RX before a read takes its own, and with a
write, is the model's choice, log 17. -/
def Obligations.LinkPrimitivesKeepTheirContract : Prop :=
  (∀ (d : LinkDraw) (l : Link),
    (∀ n bs m, linkRead n d l = (.ok bs, m) →
      bs = (l.rx ++ d.arrived).take (min d.count n) ∧ l.rx ++ d.arrived = bs ++ m.rx ∧ bs.length ≤ n ∧
        m.log = l.log ++ [.read n (some bs)]) ∧
    (∀ bs m, linkFlush d l = (.ok bs, m) → m.rx = [] ∧ m.log = l.log ++ [.flush true]) ∧
    (∀ f bs m, linkWrite f d l = (.ok bs, m) →
      transmitStream m = transmitStream l ++ f ∧ m.rx = l.rx ++ d.arrived ∧
        m.log = l.log ++ [.write f f.length true])) ∧
  (∀ (l : Link) (n : Nat) (bs : List Byte), l.ready = true → bs.length ≤ n → bs <+: l.rx ∨ l.rx <+: bs →
    ∃ d m, linkRead n d l = (.ok bs, m)) ∧
  (∀ (l : Link) (n : Nat) (f : List Byte), l.ready = true →
    (∃ d m, linkFlush d l = (.ok [], m)) ∧ (∃ d m, linkWrite f d l = (.ok [], m)) ∧
    ∃ d, (linkRead n d l).1 = .xportErr ∧ (linkFlush d l).1 = .xportErr ∧ (linkWrite f d l).1 = .xportErr)

/-! ### Encodings (30_encoding.md) -/

/-- 30_encoding.md section 2: every well-formed instruction has a request, and it decodes to the
instruction, with every operand at every value the encoding admits. -/
def Obligations.DecodeInvertsEncode : Prop :=
  ∀ i : Instr, i.wf = true → encode i = some (encodeBytes i) ∧ decode (encodeBytes i) = .instr i

/-- 30_encoding.md sections 2 and 3: a request that decodes is the one request of its instruction. -/
def Obligations.EncodeInvertsDecode : Prop :=
  ∀ (r : List Byte) (i : Instr), decode r = .instr i → i.wf = true ∧ encode i = some r

/-- R90: every request is sorted into an illegal one (fewer than 2 bytes or an unassigned OPSEL), a
malformed one (one of the listed reasons holds) and a legal one; an illegal or malformed request only gets
its status, in every state. -/
def Obligations.RequestsAreSorted : Prop :=
  ∀ r : List Byte,
    (decode r = .illegal ↔ r.length < 2 ∨ ¬ assigned (at_ r 0)) ∧
    (decode r = .malformed ↔ 2 ≤ r.length ∧ assigned (at_ r 0) ∧ MalformedReason r) ∧
    ((∃ i, decode r = .instr i) ↔ 2 ≤ r.length ∧ assigned (at_ r 0) ∧ ¬ MalformedReason r) ∧
    ∀ (s : State) (rest : List Event), s.inputs = .request r :: rest →
      (decode r = .illegal → step s = .next (answers { s with inputs := rest } .illegalOperation none)) ∧
      (decode r = .malformed → step s = .next (answers { s with inputs := rest } .malformedRequest none))

/-- 30_encoding.md section 2: at most 7 bytes of a legal request tell its total length. -/
def Obligations.SevenBytesTellTheLength : Prop :=
  ∀ (r : List Byte) (i : Instr), decode r = .instr i → requestLength (r.take 7) = some r.length

/-- 30_encoding.md sections 2 and 4: words written out from the encoding tables decode to the instruction
they stand for. -/
def Obligations.SampleRequestsDecode : Prop :=
  decode [0x01, 0x00, 0x4C, 0x03, 0x01, 0x02, 0x03] = .instr (.build 0x4C [1, 2, 3]) ∧
  decode [0x02, 0x01, 0x3A, 0x00, 0x03, 0x3A, 0x00, 0x3A] = .instr (.validate (some 0x3A) [0x3A, 0, 0x3A]) ∧
  decode [0x10, 0x37, 0x01, 0x15, 0x00, 0x00, 0x01, 0xAA] = .instr (.decodeBit .ascii 7 0x0115 [0xAA]) ∧
  decode [0x10, 0xA0, 0x00, 0x09, 0x04, 0x00, 0x01, 0x5A] = .instr (.decodeMbH 9 4 [0x5A]) ∧
  decode [0x20, 0x00, 0x3A, 0x02, 0x01, 0x07] = .instr (.execute 0x3A 2 [7])

/-- R93: the pseudo-instructions; a name the schema lacks becomes index 0xFFFF, which is never assigned,
and its result is ABSENT. -/
def Obligations.PseudoInstructionsExpand : Prop :=
  ∀ (s : State) (name : Text) (buf : List Byte), schemaWf s.params.schema = true → buf.length ≤ 65535 →
    (∀ k e, s.params.schema[k]? = some e → e.name = name →
      (Pseudo.decodeName name buf).expand s.params.schema = .decodeNamed (BitVec.ofNat 16 k) buf) ∧
    ((∀ e ∈ s.params.schema, e.name ≠ name) →
      (Pseudo.decodeName name buf).expand s.params.schema = .decodeNamed 0xFFFF buf) ∧
    exec (.decodeNamed 0xFFFF buf) s = .next (answers s .absent none) ∧
    (∀ cmd ret, (Pseudo.poll cmd ret).expand s.params.schema = .execute cmd ret []) ∧
    (∀ bs e, (Pseudo.check bs e).expand s.params.schema = .validate (some e) bs)

/-! ### Steps -/

/-- 30_encoding.md section 2: a step whose next input is a request that decodes runs the decoded
instruction at the state without that input. -/
def Obligations.StepRunsTheDecodedRequest : Prop :=
  ∀ (s : State) (r : List Byte) (rest : List Event) (i : Instr),
    s.inputs = .request r :: rest → decode r = .instr i → step s = exec i { s with inputs := rest }

/-- Which agent a step belongs to where the next input is no request: the model's choice of how the
interleaving of 20_memory.md section 4 is held in the state, log 8 and log 9. -/
def Obligations.StepsOfTheOtherAgents : Prop :=
  ∀ (s : State) (rest : List Event),
    (∀ d, s.inputs = .block d :: rest → step s = .next (seqStep d { s with inputs := rest })) ∧
    (∀ bs, s.inputs = .arrive bs :: rest → step s =
      .next { s with inputs := rest, link := { s.link with rx := s.link.rx ++ bs } }) ∧
    (∀ b, s.inputs = .linkReady b :: rest → step s =
      .next { s with inputs := rest, link := { s.link with ready := b } }) ∧
    (s.inputs = [] → s.seq.phase = .idle → step s = .next s) ∧
    (s.inputs = [] → s.seq.phase ≠ .idle → ∃ d, step s =
      .next (seqStep d { s with drawCount := s.drawCount + 1 }))

/-- 00_scope.md section 5 and 60_exceptions.md section 1: no step faults or is refused, from any state and
on any input. -/
def Obligations.EveryStepCompletes : Prop := ∀ s : State, ∃ t, step s = .next t

/-- 10_state.md section 3: no step changes SCHEMA, nor any other parameter. -/
def Obligations.ParametersNeverChange : Prop :=
  ∀ s t : State, step s = .next t → t.params = s.params

/-- 10_state.md section 2: the sequencer registers change only by a sequencer step of a busy sequencer, by
an EXECUTE or an ABORT, or by reset. -/
def Obligations.OnlyTheSequencerWritesItsRegisters : Prop :=
  ∀ s t : State, step s = .next t → t.seq ≠ s.seq →
    (busy s = true ∧ (s.inputs = [] ∨ ∃ d rest, s.inputs = .block d :: rest)) ∨
    (∃ r rest cmd ret p, s.inputs = .request r :: rest ∧ decode r = .instr (.execute cmd ret p)) ∨
    (∃ r rest, s.inputs = .request r :: rest ∧ decode r = .instr .abort) ∨
    (∃ rest, s.inputs = .reset :: rest)

/-- 10_state.md section 2: SEQ.TX_FRAME, SEQ.REQ_CMD and SEQ.MAX_RETRIES change only where an EXECUTE is
accepted while idle, or by reset; so every attempt of an EXECUTE sends the one frame built at acceptance. -/
def Obligations.LatchedRegistersChangeAtAcceptance : Prop :=
  ∀ s t : State, step s = .next t →
    t.seq.txFrame ≠ s.seq.txFrame ∨ t.seq.reqCmd ≠ s.seq.reqCmd ∨ t.seq.maxRetries ≠ s.seq.maxRetries →
    (∃ rest, s.inputs = .reset :: rest) ∨
    (s.seq.phase = .idle ∧ ∃ r rest cmd ret p, s.inputs = .request r :: rest ∧
      decode r = .instr (.execute cmd ret p) ∧ t.seq.reqCmd = cmd ∧ t.seq.maxRetries = ret)

/-- 10_state.md section 2: SEQ.LAST_STATUS does not change by a step that leaves an EXECUTE in progress. -/
def Obligations.LastStatusIsKeptWhileBusy : Prop :=
  ∀ s t : State, step s = .next t → busy t = true → t.seq.lastStatus = s.seq.lastStatus

/-- 20_memory.md section 4: a step issues at most one link primitive, the one of the phase. -/
def Obligations.AtMostOneLinkPrimitivePerStep : Prop :=
  ∀ s t : State, step s = .next t →
    t.link.log = s.link.log ∨ ∃ e, primitiveOf s.seq e ∧ t.link.log = s.link.log ++ [e]

/-- 20_memory.md section 4 and 41_request_sequencer.md section 2: results already delivered stay; a step
delivers at most two. A result of the EXECUTE in progress leaves the sequencer idle with its status in
SEQ.LAST_STATUS, and a step that takes a busy sequencer to idle, and is no reset, delivers exactly one. -/
def Obligations.ResultsAreDeliveredInOrder : Prop :=
  ∀ s t : State, step s = .next t → ∃ ds : List Delivery, t.results = s.results ++ ds ∧ ds.length ≤ 2 ∧
    (∀ d ∈ ds, d.port = .execute → busy t = false ∧ t.seq.lastStatus = some d.result.status) ∧
    ((∀ rest, s.inputs ≠ .reset :: rest) → busy s = true → busy t = false →
      (ds.filter fun d => d.port = .execute).length = 1)

/-! ### Reset (70_reset_and_hazards.md) -/

/-- R230: the sequencer registers right after reset, the record a STATUS returns then, and the same
registers after reset is applied in any state. -/
def Obligations.ResetRegisters : Prop :=
  State.reset.seq =
    { phase := .idle, attempt := 0, maxRetries := 0, reqCmd := 0, writeCount := 0, lastStatus := none,
      lastFail := .none, bodyLen := 0, txFrame := [], rxHdr := [], rxBody := [], respPayload := [] } ∧
  exec .status State.reset = .next (answers State.reset .ok
    (some (.bytes [0x00, 0x00, 0x00, 0x00, 0x00, 0x00, 0x00, 0xFF, 0x00, 0x00]))) ∧
  ∀ (s : State) (rest : List Event), s.inputs = .reset :: rest →
    ∃ t, step s = .next t ∧ t.seq = State.reset.seq

/-- R234: reset applied in any state puts the registers at their reset values, gives an
EXECUTE in progress no result, and touches neither the link nor SCHEMA. -/
def Obligations.ResetAbandonsTheExecute : Prop :=
  ∀ (s : State) (rest : List Event), s.inputs = .reset :: rest →
    step s = .next { s with inputs := rest, seq :=
      { phase := .idle, attempt := 0, maxRetries := 0, reqCmd := 0, writeCount := 0, lastStatus := none,
        lastFail := .none, bodyLen := 0, txFrame := [], rxHdr := [], rxBody := [], respPayload := [] } }

/-! ### Invariants and progress -/

/-- The invariant holds right after reset; its clause on SCHEMA rests on how the model takes the OPEN
parameter (log 1). -/
def Obligations.InvariantHoldsAtReset : Prop := BlockInv State.reset

/-- 10_state.md section 2, 41_request_sequencer.md section 2 and 60_exceptions.md section 1: every step
keeps the invariant: legal register values in every phase, counts that agree, results that carry no
partial value, link primitives as the sequencer issues them, a legal SCHEMA. -/
def Obligations.EveryStepKeepsTheInvariant : Prop :=
  ∀ s t : State, BlockInv s → step s = .next t → BlockInv t

/-- 41_request_sequencer.md section 2, the property the spec derives there as (d), with the link liveness
of 70_reset_and_hazards.md section 3: left to itself, a busy sequencer ends its EXECUTE within five steps
and four link primitives for each attempt it has left, and delivers exactly one result. -/
def Obligations.EveryExecuteEnds : Prop :=
  ∀ s : State, BlockInv s → busy s = true → (∀ e ∈ s.inputs, ∃ d, e = Event.block d) →
    ∃ (k : Nat) (t : State) (evs : List LinkEvent) (r : Result),
      k ≤ 5 * (s.seq.maxRetries.toNat + 2 - s.seq.attempt.toNat) ∧
      Host.Core.run Sys2Proof.core k s = .next t ∧ busy t = false ∧
      t.link.log = s.link.log ++ evs ∧
      evs.length ≤ 4 * (s.seq.maxRetries.toNat + 2 - s.seq.attempt.toNat) ∧
      t.results = s.results ++ [⟨.execute, r⟩] ∧ t.seq.lastStatus = some r.status ∧
      r.status ∈ [Status.ok, .retriesExhausted, .transportFailure]

/-- 10_state.md section 5 and 60_exceptions.md section 6: a step of one instance touches no other, and the
instances go on sharing one SCHEMA. -/
def Obligations.InstancesDoNotInterfere : Prop :=
  ∀ (y z : System) (k : Nat), y.stepAt k = some z →
    (∀ j, j ≠ k → z.instances[j]? = y.instances[j]?) ∧ (y.sharesSchema → z.sharesSchema) ∧
    z.instances.length = y.instances.length
end

