-- ==== Sys2Proof/Laws/State.lean ====
section
/-! SUPPORT. One lemma per field and per named update of the state, true by `rfl`, so that no proof unfolds
a record update. -/

namespace Sys2Proof.Machine

/-! ### deliver -/

@[simp] theorem deliver_params (p : Port) (r : Result) (s : State) : (deliver p r s).params = s.params := rfl
@[simp] theorem deliver_seq (p : Port) (r : Result) (s : State) : (deliver p r s).seq = s.seq := rfl
@[simp] theorem deliver_link (p : Port) (r : Result) (s : State) : (deliver p r s).link = s.link := rfl
@[simp] theorem deliver_inputs (p : Port) (r : Result) (s : State) : (deliver p r s).inputs = s.inputs := rfl
@[simp] theorem deliver_results (p : Port) (r : Result) (s : State) :
    (deliver p r s).results = s.results ++ [⟨p, r⟩] := rfl
@[simp] theorem deliver_drawCount (p : Port) (r : Result) (s : State) :
    (deliver p r s).drawCount = s.drawCount := rfl

/-! ### returnOk and raise are deliveries -/

theorem returnOk_eq (v : Option Value) (s : State) : returnOk v s = deliver .immediate ⟨.ok, v⟩ s := rfl
theorem raise_eq (st : Status) (s : State) : raise st s = deliver .immediate ⟨st, none⟩ s := rfl
theorem returnDecoded_some (v : DecodedValue) (s : State) :
    returnDecoded (some v) s = deliver .immediate ⟨.ok, some (.decoded v)⟩ s := rfl
theorem returnDecoded_none (s : State) : returnDecoded none s = deliver .immediate ⟨.absent, none⟩ s := rfl
theorem returnParsed_some (c : Byte) (p : List Byte) (s : State) :
    returnParsed (some (c, p)) s = deliver .immediate ⟨.ok, some (.frame c p)⟩ s := rfl
theorem returnParsed_none (s : State) : returnParsed none s = deliver .immediate ⟨.invalid, none⟩ s := rfl

/-- Whatever a decode gives, its result is a delivery. -/
theorem returnDecoded_eq_deliver (v : Option DecodedValue) (s : State) :
    returnDecoded v s = deliver .immediate
      (match v with | some v => ⟨.ok, some (.decoded v)⟩ | none => ⟨.absent, none⟩) s := by
  cases v <;> rfl

/-- Whatever a parse gives, its result is a delivery. -/
theorem returnParsed_eq_deliver (v : Option (Byte × List Byte)) (s : State) :
    returnParsed v s = deliver .immediate
      (match v with | some (c, p) => ⟨.ok, some (.frame c p)⟩ | none => ⟨.invalid, none⟩) s := by
  cases v <;> rfl

/-! ### complete -/

@[simp] theorem complete_params (st : Status) (s : State) : (complete st s).params = s.params := rfl
@[simp] theorem complete_link (st : Status) (s : State) : (complete st s).link = s.link := rfl
@[simp] theorem complete_inputs (st : Status) (s : State) : (complete st s).inputs = s.inputs := rfl
@[simp] theorem complete_drawCount (st : Status) (s : State) : (complete st s).drawCount = s.drawCount := rfl
@[simp] theorem complete_seq (st : Status) (s : State) :
    (complete st s).seq = { s.seq with lastStatus := some st, phase := .idle } := rfl
@[simp] theorem complete_results (st : Status) (s : State) :
    (complete st s).results = s.results ++
      [⟨.execute, ⟨st, if st = .ok then some (.bytes s.seq.respPayload) else none⟩⟩] := rfl

/-! ### transportFailure -/

@[simp] theorem transportFailure_params (l : Link) (s : State) : (transportFailure l s).params = s.params := rfl
@[simp] theorem transportFailure_link (l : Link) (s : State) : (transportFailure l s).link = l := rfl
@[simp] theorem transportFailure_inputs (l : Link) (s : State) : (transportFailure l s).inputs = s.inputs := rfl
@[simp] theorem transportFailure_drawCount (l : Link) (s : State) :
    (transportFailure l s).drawCount = s.drawCount := rfl
@[simp] theorem transportFailure_seq (l : Link) (s : State) :
    (transportFailure l s).seq = { s.seq with lastStatus := some .transportFailure, phase := .idle } := rfl
@[simp] theorem transportFailure_results (l : Link) (s : State) :
    (transportFailure l s).results = s.results ++ [⟨.execute, ⟨.transportFailure, none⟩⟩] := rfl

/-! ### latch and applyReset -/

@[simp] theorem latch_params (c r : Byte) (s : State) : (latch c r s).params = s.params := rfl
@[simp] theorem latch_link (c r : Byte) (s : State) : (latch c r s).link = s.link := rfl
@[simp] theorem latch_inputs (c r : Byte) (s : State) : (latch c r s).inputs = s.inputs := rfl
@[simp] theorem latch_results (c r : Byte) (s : State) : (latch c r s).results = s.results := rfl
@[simp] theorem latch_drawCount (c r : Byte) (s : State) : (latch c r s).drawCount = s.drawCount := rfl
@[simp] theorem applyReset_params (s : State) : (applyReset s).params = s.params := rfl
@[simp] theorem applyReset_seq (s : State) : (applyReset s).seq = Sequencer.reset := rfl
@[simp] theorem applyReset_link (s : State) : (applyReset s).link = s.link := rfl
@[simp] theorem applyReset_inputs (s : State) : (applyReset s).inputs = s.inputs := rfl
@[simp] theorem applyReset_results (s : State) : (applyReset s).results = s.results := rfl
@[simp] theorem applyReset_drawCount (s : State) : (applyReset s).drawCount = s.drawCount := rfl

/-! ### attemptStart -/

theorem attemptStart_exhausted {s : State} (h : s.seq.attempt.toNat = s.seq.maxRetries.toNat + 1) :
    attemptStart s = complete .retriesExhausted s := by simp [attemptStart, h]

theorem attemptStart_next {s : State} (h : s.seq.attempt.toNat ≠ s.seq.maxRetries.toNat + 1) :
    attemptStart s = { s with seq := { s.seq with
      attempt := s.seq.attempt + 1, rxHdr := [], rxBody := [], bodyLen := 0, phase := .flush } } := by
  simp [attemptStart, h]

@[simp] theorem attemptStart_params (s : State) : (attemptStart s).params = s.params := by
  unfold attemptStart; split <;> rfl
@[simp] theorem attemptStart_link (s : State) : (attemptStart s).link = s.link := by
  unfold attemptStart; split <;> rfl
@[simp] theorem attemptStart_inputs (s : State) : (attemptStart s).inputs = s.inputs := by
  unfold attemptStart; split <;> rfl
@[simp] theorem attemptStart_drawCount (s : State) : (attemptStart s).drawCount = s.drawCount := by
  unfold attemptStart; split <;> rfl

@[simp] theorem failAttempt_params (w : FailCode) (s : State) : (failAttempt w s).params = s.params := by
  simp [failAttempt]
@[simp] theorem failAttempt_link (w : FailCode) (s : State) : (failAttempt w s).link = s.link := by
  simp [failAttempt]
@[simp] theorem failAttempt_inputs (w : FailCode) (s : State) : (failAttempt w s).inputs = s.inputs := by
  simp [failAttempt]
@[simp] theorem failAttempt_drawCount (w : FailCode) (s : State) :
    (failAttempt w s).drawCount = s.drawCount := by simp [failAttempt]

end Sys2Proof.Machine
end

