-- ==== Sys2Proof/Laws/Operands.lean ====
section
/-! SUPPORT. What the operand primitives compute: one specification lemma each (00_scope.md R14). -/

namespace Sys2Proof.Machine

/-! ### sum8 -/

theorem sum8_toNat (bs : List Byte) : (sum8 bs).toNat = (bs.map BitVec.toNat).sum % 256 := by
  simp [sum8, BitVec.toNat_ofNat]

@[simp] theorem sum8_nil : sum8 [] = 0 := rfl

theorem sum8_cons (b : Byte) (bs : List Byte) : sum8 (b :: bs) = b + sum8 bs := by
  apply BitVec.eq_of_toNat_eq
  simp [sum8_toNat, BitVec.toNat_add]

theorem sum8_append (xs ys : List Byte) : sum8 (xs ++ ys) = sum8 xs + sum8 ys := by
  apply BitVec.eq_of_toNat_eq
  simp [sum8_toNat, BitVec.toNat_add, Nat.add_mod]

/-- The sum does not depend on the order of the bytes (R100). -/
theorem sum8_perm {xs ys : List Byte} (h : xs.Perm ys) : sum8 xs = sum8 ys := by
  simp only [sum8, (h.map BitVec.toNat).sum_eq]

/-! ### slices and MemRead -/

theorem slice_length {bs : List Byte} {a b : Nat} (h : b ≤ bs.length) :
    (slice bs a b).length = b - a := by
  simp only [slice, List.length_take, List.length_drop]; omega

theorem memRead_eq_some {buf : List Byte} {a n : Nat} (h : a + n ≤ buf.length) :
    memRead buf a n = some ((buf.drop a).take n) := by
  simp [memRead, slice, h]

theorem memRead_eq_none {buf : List Byte} {a n : Nat} (h : buf.length < a + n) :
    memRead buf a n = none := by
  simp only [memRead]; rw [if_neg (by omega)]

/-- One byte is read exactly where it exists. -/
theorem memRead_one (buf : List Byte) (a : Nat) : memRead buf a 1 = (buf[a]?).map fun x => [x] := by
  by_cases h : a < buf.length
  · rw [memRead_eq_some (by omega), List.getElem?_eq_getElem h, List.drop_eq_getElem_cons h]; rfl
  · rw [memRead_eq_none (by omega), List.getElem?_eq_none (by omega)]; rfl

/-- What was read stays the same when the buffer grows (R180 (b)). -/
theorem memRead_append {buf x : List Byte} {a n : Nat} (ext : List Byte) (h : memRead buf a n = some x) :
    memRead (buf ++ ext) a n = some x := by
  by_cases hb : a + n ≤ buf.length
  · rw [memRead_eq_some hb] at h
    rw [memRead_eq_some (by simp; omega), ← h, List.drop_append_of_le_length (by omega),
      List.take_append_of_le_length (by simp; omega)]
  · rw [memRead_eq_none (by omega)] at h; cases h

/-! ### be_uint -/

theorem beUint_nil : beUint [] = 0 := rfl

theorem beUint_append_singleton (bs : List Byte) (b : Byte) :
    beUint (bs ++ [b]) = 256 * beUint bs + b.toNat := by simp [beUint]

theorem beUint_lt (bs : List Byte) : beUint bs < 256 ^ bs.length := by
  induction bs using List.reverseRecOn with
  | nil => simp [beUint]
  | append_singleton bs b ih =>
    rw [beUint_append_singleton, List.length_append, List.length_singleton, pow_succ]
    have := b.isLt
    omega

/-! ### The trailing NUL run -/

/-- `stripNul` removes exactly the trailing NUL run (R174, log 13). -/
theorem stripNul_append_zeros (y : List Byte) (k : Nat) (h : y = [] ∨ y.getLast? ≠ some 0) :
    stripNul (y ++ List.replicate k 0) = y := by
  have hz : ∀ z : List Byte, (List.replicate k (0 : Byte) ++ z).dropWhile (· = 0) = z.dropWhile (· = 0) := by
    intro z; induction k with
    | zero => simp
    | succ k _ => simp [List.replicate_succ]
  rw [stripNul, List.reverse_append, List.reverse_replicate, hz]
  cases hr : y.reverse with
  | nil => simpa using hr.symm
  | cons b t =>
    have hy : y = t.reverse ++ [b] := by rw [← List.reverse_reverse y, hr]; simp
    have hb : b ≠ 0 := by
      rcases h with h | h
      · simp [h] at hr
      · intro h0; apply h; simp [hy, h0]
    rw [List.dropWhile_cons_of_neg (by simpa using hb), hy]; simp

/-! ### Two-byte fields -/

theorem be16_toNat (hi lo : Byte) : (be16 hi lo).toNat = 256 * hi.toNat + lo.toNat := by
  rw [be16, BitVec.toNat_append, Nat.shiftLeft_eq, Nat.mul_comm, ← Nat.two_pow_add_eq_or_of_lt lo.isLt]

theorem be16_of_bytes (h : Half) : be16 (h.extractLsb' 8 8) (h.extractLsb' 0 8) = h := by
  apply BitVec.eq_of_toNat_eq
  rw [be16_toNat]; simp [BitVec.extractLsb'_toNat, Nat.shiftRight_eq_div_pow]
  omega

theorem be16_hi (hi lo : Byte) : (be16 hi lo).extractLsb' 8 8 = hi := by
  apply BitVec.eq_of_toNat_eq
  simp only [BitVec.extractLsb'_toNat, be16_toNat, Nat.shiftRight_eq_div_pow]
  omega

theorem be16_lo (hi lo : Byte) : (be16 hi lo).extractLsb' 0 8 = lo := by
  apply BitVec.eq_of_toNat_eq
  simp only [BitVec.extractLsb'_toNat, be16_toNat, Nat.shiftRight_eq_div_pow]
  omega

end Sys2Proof.Machine
end

