-- ==== Sys2Proof/Laws/Decode.lean ====
section
/-! SUPPORT. What the encoder's fields are read back as (30_encoding.md R84, R87). -/

namespace Sys2Proof

@[simp] theorem reprOfBits_reprBits (r : Representation) : reprOfBits (reprBits r) = r := by
  cases r <;> rfl

theorem reprBits_reprOfBits (c : BitVec 2) : reprBits (reprOfBits c) = c := by revert c; decide

@[simp] theorem krKind_krByte (k : BitVec 2) (r : Representation) (b : BitVec 3) :
    krKind (krByte k r b) = k := by cases r <;> revert k b <;> decide

@[simp] theorem krReprBits_krByte (k : BitVec 2) (r : Representation) (b : BitVec 3) :
    krReprBits (krByte k r b) = reprBits r := by cases r <;> revert k b <;> decide

@[simp] theorem krReserved_krByte (k : BitVec 2) (r : Representation) (b : BitVec 3) :
    krReserved (krByte k r b) = false := by cases r <;> revert k b <;> decide

@[simp] theorem krBit_krByte (k : BitVec 2) (r : Representation) (b : BitVec 3) :
    krBit (krByte k r b) = b := by cases r <;> revert k b <;> decide

/-- A descriptor byte whose reserved bit is 0 is put together again from its fields. -/
theorem krByte_of_fields (kr : Byte) (h : krReserved kr = false) :
    krByte (krKind kr) (reprOfBits (krReprBits kr)) (krBit kr) = kr := by
  revert kr; decide

/-- The field `M` of a buffer that has one is its length. -/
theorem be16_countM {buf : List Byte} (h : buf.length ≤ Config.bufMax) (hi lo : Byte)
    (hc : countM buf = [hi, lo]) : (be16 hi lo).toNat = buf.length := by
  have hb : buf.length ≤ 65535 := h
  simp only [countM, be16Bytes, List.cons.injEq, and_true] at hc
  rw [← hc.1, ← hc.2, Machine.be16_of_bytes, BitVec.toNat_ofNat]; omega

theorem legalIf_eq_instr {c : Bool} {i j : Instr} : legalIf c i = .instr j ↔ c = true ∧ i = j := by
  cases c <;> simp [legalIf]

theorem legalIf_ne_illegal {c : Bool} {i : Instr} : legalIf c i ≠ .illegal := by
  cases c <;> simp [legalIf]

end Sys2Proof
end

