-- ==== Sys2Proof/Laws/Exec.lean ====
section
/-! SUPPORT. What a request can do to the state (60_exceptions.md R206), said once: the result of a pure
operation, and the outcome of every operation. -/

namespace Sys2Proof.Machine

theorem encodable_of_le {n max : Nat} (h : n ≤ max) (t : State) : encodable n max t = .next t := by
  simp [encodable, h]

theorem encodable_of_lt {n max : Nat} (h : max < n) (t : State) : encodable n max t = .refused .unencodable := by
  simp [encodable, Nat.not_le.mpr h]

theorem encodable_ne_fault {n max : Nat} {t : State} (r : Fault) : encodable n max t ≠ .fault r := nomatch r

/-- The result of a decode. -/
def resultOfDecoded : Option DecodedValue → Result
  | some v => ⟨.ok, some (.decoded v)⟩
  | none => ⟨.absent, none⟩

/-- The result of a Multibyte decode of an inline descriptor. -/
def resultOfMb (len : Byte) (v : Option DecodedValue) : Result :=
  if lenLegal len then resultOfDecoded v else ⟨.malformedRequest, none⟩

/-- The result of a pure operation: a function of its operands and the parameters (R18, R60). -/
def pureResult (p : Params) : Instr → Result
  | .build c q => ⟨.ok, some (.bytes (build c q))⟩
  | .validate e bs => ⟨.ok, some (.bool (validate bs e))⟩
  | .parse bs => match parse bs with | some (c, q) => ⟨.ok, some (.frame c q)⟩ | none => ⟨.invalid, none⟩
  | .decodeBit _ b o buf => resultOfDecoded (decodeBit b o buf)
  | .decodeByteU o buf => resultOfDecoded (decodeByteUnsigned o buf)
  | .decodeByteS o buf => resultOfDecoded (decodeByteSigned o buf)
  | .decodeByteH o buf => resultOfDecoded (decodeByteHex o buf)
  | .decodeByteA o buf => resultOfDecoded (decodeByteAscii o buf)
  | .decodeMbU o l buf => resultOfMb l (decodeMbUnsigned o l buf)
  | .decodeMbS o l buf => resultOfMb l (decodeMbSigned o l buf)
  | .decodeMbH o l buf => resultOfMb l (decodeMbHex o l buf)
  | .decodeMbA o l buf => resultOfMb l (decodeMbAscii p.asciiHigh o l buf)
  | .decodeNamed i buf => resultOfDecoded (decodeNamed p i buf)
  | .decodeAll buf => ⟨.ok, some (.view (decodeAll p buf))⟩
  | .execute _ _ _ => ⟨.ok, none⟩
  | .abort => ⟨.ok, none⟩
  | .status => ⟨.ok, none⟩

theorem runDecode_of_fits {buf : List Byte} (h : bufferFits buf = true) (v : Option DecodedValue) (s : State) :
    runDecode buf v s = .next (deliver .immediate (resultOfDecoded v) s) := by
  rw [runDecode, encodable_of_le (by simpa [bufferFits] using h), returnDecoded_eq_deliver]
  cases v <;> rfl

theorem runMbDecode_of_fits {buf : List Byte} (h : bufferFits buf = true) (len : Byte)
    (v : Option DecodedValue) (s : State) :
    runMbDecode len buf v s = .next (deliver .immediate (resultOfMb len v) s) := by
  rw [runMbDecode, encodable_of_le (by simpa [bufferFits] using h), resultOfMb, returnDecoded_eq_deliver]
  cases lenLegal len <;> cases v <;> rfl

/-- A well-formed pure operation delivers its result and changes nothing else (R60, R206). -/
theorem exec_pure {i : Instr} (hp : isPure i = true) (hw : i.wf = true) (s : State) :
    exec i s = .next (deliver .immediate (pureResult s.params i) s) := by
  cases i with
  | build c q => exact encodable_of_le (by simpa [Instr.wf, payloadFits] using hw) _
  | validate e bs => exact encodable_of_le (by simpa [Instr.wf, bufferFits] using hw) _
  | parse bs =>
    rw [exec, execParse, encodable_of_le (by simpa [Instr.wf, bufferFits] using hw)]
    simp only [pureResult]
    cases parse bs <;> rfl
  | decodeBit r b o buf => exact runDecode_of_fits hw _ s
  | decodeByteU o buf => exact runDecode_of_fits hw _ s
  | decodeByteS o buf => exact runDecode_of_fits hw _ s
  | decodeByteH o buf => exact runDecode_of_fits hw _ s
  | decodeByteA o buf => exact runDecode_of_fits hw _ s
  | decodeMbU o l buf => exact runMbDecode_of_fits (Bool.and_eq_true _ _ ▸ hw).2 l _ s
  | decodeMbS o l buf => exact runMbDecode_of_fits (Bool.and_eq_true _ _ ▸ hw).2 l _ s
  | decodeMbH o l buf => exact runMbDecode_of_fits (Bool.and_eq_true _ _ ▸ hw).2 l _ s
  | decodeMbA o l buf => exact runMbDecode_of_fits (Bool.and_eq_true _ _ ▸ hw).2 l _ s
  | decodeNamed i buf => exact runDecode_of_fits hw _ s
  | decodeAll buf =>
    refine encodable_of_le ?_ _
    cases buf with
    | none => decide
    | some b => simpa [Instr.wf, bufferFits] using hw
  | execute c r q => cases hp
  | abort => cases hp
  | status => cases hp

/-- A well-formed operation always gives a next state (R19). -/
theorem exec_completes {i : Instr} (hw : i.wf = true) (s : State) : ∃ t, exec i s = .next t := by
  cases hp : isPure i with
  | true => exact ⟨_, exec_pure hp hw s⟩
  | false =>
    cases i with
    | execute c r q => exact ⟨_, encodable_of_le (by simpa [Instr.wf, payloadFits] using hw) _⟩
    | abort => exact ⟨_, rfl⟩
    | status => exact ⟨_, rfl⟩
    | build _ _ | validate _ _ | parse _ | decodeBit _ _ _ _ | decodeByteU _ _ | decodeByteS _ _
    | decodeByteH _ _ | decodeByteA _ _ | decodeMbU _ _ _ | decodeMbS _ _ _ | decodeMbH _ _ _
    | decodeMbA _ _ _ | decodeNamed _ _ | decodeAll _ => cases hp

/-! ### Runs -/

/-- One step of a run. -/
theorem run_succ (M : Host.Core) (k : Nat) {s t : M.State} (h : M.step s = .next t) :
    Host.Core.run M (k + 1) s = Host.Core.run M k t := by rw [Host.Core.run, h]

/-- A run of the block whose first step gives a next state goes on from it. -/
theorem run_succ_of_next {s t : State} (k : Nat) (h : step s = .next t) :
    Host.Core.run Sys2Proof.core (k + 1) s = Host.Core.run Sys2Proof.core k t := run_succ Sys2Proof.core k h

end Sys2Proof.Machine
end

