-- ==== Sys2Proof/Laws/FrameCodec.lean ====
section
/-! SUPPORT. What the frame codec computes (40_frame_codec.md): when `validate` accepts, and what a built
frame holds at each index. -/

namespace Sys2Proof.Machine

/-- `validate` accepts exactly when the checks (a) to (d) of R104 all hold. -/
theorem validate_iff (bs : List Byte) (exp : Option Byte) :
    validate bs exp = true ↔
      3 ≤ bs.length ∧ 3 + declaredLen bs ≤ bs.length ∧
      sum8 (slice bs 0 (2 + declaredLen bs)) = byteAt bs (2 + declaredLen bs) ∧
      ∀ e, exp = some e → byteAt bs 0 = e := by
  unfold validate Config.minFrame
  by_cases h3 : bs.length < 3
  · rw [if_pos h3]; simp; omega
  · by_cases hl : bs.length < 3 + declaredLen bs
    · rw [if_neg h3, if_pos hl]; simp; omega
    · by_cases hs : sum8 (slice bs 0 (2 + declaredLen bs)) = byteAt bs (2 + declaredLen bs)
      · rw [if_neg h3, if_neg hl, if_neg (by simpa using hs)]
        cases exp <;> simp [hs, Nat.le_of_not_lt h3, Nat.le_of_not_lt hl]
      · rw [if_neg h3, if_neg hl, if_pos hs]; simp [hs]

/-! ### Built frames -/

@[simp] theorem build_length (cmd : Byte) (p : List Byte) : (build cmd p).length = p.length + 3 := by
  simp [build]

@[simp] theorem byteAt_build_zero (cmd : Byte) (p : List Byte) : byteAt (build cmd p) 0 = cmd := rfl

theorem declaredLen_build {cmd : Byte} {p : List Byte} (h : p.length ≤ 255) :
    declaredLen (build cmd p) = p.length := by
  simp [declaredLen, build, byteAt, BitVec.toNat_ofNat]; omega

theorem byteAt_build_checksum (cmd : Byte) (p : List Byte) :
    byteAt (build cmd p) (2 + p.length) = checksum cmd p := by
  rw [Nat.add_comm]; simp [build, byteAt]

theorem slice_build_body (cmd : Byte) (p : List Byte) :
    slice (build cmd p) 0 (2 + p.length) = cmd :: BitVec.ofNat 8 p.length :: p := by
  rw [Nat.add_comm]; simp [build, slice]

theorem slice_build_payload (cmd : Byte) (p : List Byte) : slice (build cmd p) 2 (2 + p.length) = p := by
  simp [build, slice]

/-- A frame that validates and has no byte beyond its checksum is the built frame of its own command and
payload (R143 (b)). -/
theorem eq_build_of_validate {bs : List Byte} {exp : Option Byte} (hv : validate bs exp = true)
    (hl : bs.length = 3 + declaredLen bs) : bs = build (byteAt bs 0) (framePayload bs) := by
  obtain ⟨h3, _, hs, _⟩ := (validate_iff bs exp).mp hv
  obtain ⟨c, l, rest, rfl⟩ : ∃ c l rest, bs = c :: l :: rest := by
    match bs, h3 with
    | c :: l :: rest, _ => exact ⟨c, l, rest, rfl⟩
  have hd : declaredLen (c :: l :: rest) = l.toNat := rfl
  rw [hd] at hl hs
  simp only [List.length_cons] at hl
  have hr : rest = rest.take l.toNat ++ [rest.getD l.toNat 0] := by
    conv_lhs => rw [← List.take_append_drop l.toNat rest]
    congr 1
    rw [List.drop_eq_getElem_cons (by omega), List.drop_eq_nil_of_le (by omega)]
    simp [List.getD_eq_getElem?_getD, List.getElem?_eq_getElem (show l.toNat < rest.length by omega)]
  have hp : framePayload (c :: l :: rest) = rest.take l.toNat := by
    simp [framePayload, slice, hd]
  have hlen : (rest.take l.toNat).length = l.toNat := by rw [List.length_take]; omega
  have hs' : sum8 (c :: l :: rest.take l.toNat) = rest.getD l.toNat 0 := by
    rw [Nat.add_comm] at hs; simpa [slice, byteAt] using hs
  rw [hp, build, checksum, hlen]
  simp only [BitVec.ofNat_toNat, BitVec.setWidth_eq, hs', byteAt, List.getD_cons_zero]
  rw [← hr]

end Sys2Proof.Machine
end

