-- ==== Sys2Proof/Laws/Link.lean ====
section
/-! SUPPORT. Everything a link primitive can do (20_memory.md R55-R57), said once. -/

namespace Sys2Proof.Machine

/-- `LINK.flush()` returns `XPORT_ERR`, or has emptied LINK.RX (R55). -/
theorem linkFlush_cases (d : LinkDraw) (l : Link) :
    (linkFails d l = true ∧ linkFlush d l = (.xportErr, { l with rx := d.rxAfter, log := l.log ++ [.flush false] })) ∨
    (linkFails d l = false ∧ linkFlush d l = (.ok [], { l with rx := [], log := l.log ++ [.flush true] })) := by
  cases h : linkFails d l <;> simp [linkFlush, h]

/-- `LINK.write(bs)` returns `XPORT_ERR` with some of `bs` transmitted, or has transmitted `bs` (R57). -/
theorem linkWrite_cases (bs : List Byte) (d : LinkDraw) (l : Link) :
    (linkFails d l = true ∧ linkWrite bs d l = (.xportErr,
      { l with rx := l.rx ++ d.arrived, log := l.log ++ [.write bs (min d.count bs.length) false] })) ∨
    (linkFails d l = false ∧ linkWrite bs d l = (.ok [],
      { l with rx := l.rx ++ d.arrived, log := l.log ++ [.write bs bs.length true] })) := by
  cases h : linkFails d l <;> simp [linkWrite, linkArrive, h]

/-- `LINK.read(n)` returns `XPORT_ERR`, or at most `n` bytes from the front of LINK.RX (R56). -/
theorem linkRead_cases (n : Nat) (d : LinkDraw) (l : Link) :
    (linkFails d l = true ∧ linkRead n d l = (.xportErr,
      { l with rx := d.rxAfter, log := l.log ++ [.read n none] })) ∨
    (linkFails d l = false ∧ ∃ got rest, got.length ≤ n ∧ l.rx ++ d.arrived = got ++ rest ∧
      linkRead n d l = (.ok got, { l with rx := rest, log := l.log ++ [.read n (some got)] })) := by
  cases h : linkFails d l
  · refine .inr ⟨rfl, (l.rx ++ d.arrived).take (min d.count n), (l.rx ++ d.arrived).drop (min d.count n), ?_, ?_, ?_⟩
    · rw [List.length_take]; omega
    · exact (List.take_append_drop _ _).symm
    · simp [linkRead, h]
  · exact .inl ⟨rfl, by simp [linkRead, h]⟩

/-- What a read that succeeds returns, and what it leaves: LINK.RX is cut after as many bytes as the link's
answer says, at most the bytes asked for (R56). -/
theorem linkRead_of_ok (n : Nat) {d : LinkDraw} {l : Link} (h : linkFails d l = false) :
    linkRead n d l = (.ok ((l.rx ++ d.arrived).take (min d.count n)), { l with
      rx := (l.rx ++ d.arrived).drop (min d.count n),
      log := l.log ++ [.read n (some ((l.rx ++ d.arrived).take (min d.count n)))] }) := by
  simp [linkRead, h]

/-- A read that fails (R56). -/
theorem linkRead_of_fails (n : Nat) {d : LinkDraw} {l : Link} (h : linkFails d l = true) :
    linkRead n d l = (.xportErr, { l with rx := d.rxAfter, log := l.log ++ [.read n none] }) := by
  simp [linkRead, h]

/-- A write that succeeds appends its bytes to the transmit stream (R50, R57). -/
theorem transmitStream_append (l : Link) (e : LinkEvent) :
    transmitStream { l with log := l.log ++ [e] } = transmitStream l ++ sentBytes e := by
  simp [transmitStream]

end Sys2Proof.Machine
end

