-- ==== Sys2Proof/Laws/PerInstr.lean ====
section
/-! SUPPORT. The family HeadWord: every instruction's request begins with its row's head word
(spec/opcode_table.json `match` and `mask`, 30_encoding.md R81, R86). -/

namespace Sys2Proof.Laws.HeadWord

/-- The row's match and mask, as the opcode table gives them. -/
def row : Instr → BitVec 16 × BitVec 16
  | .build _ _ => (0x0100, 0xFFFF)
  | .validate _ _ => (0x0200, 0xFFFE)
  | .parse _ => (0x0300, 0xFFFF)
  | .decodeBit _ _ _ _ => (0x1000, 0xFFC8)
  | .decodeByteU _ _ => (0x1040, 0xFFFF)
  | .decodeByteS _ _ => (0x1050, 0xFFFF)
  | .decodeByteH _ _ => (0x1060, 0xFFFF)
  | .decodeByteA _ _ => (0x1070, 0xFFFF)
  | .decodeMbU _ _ _ => (0x1080, 0xFFFF)
  | .decodeMbS _ _ _ => (0x1090, 0xFFFF)
  | .decodeMbH _ _ _ => (0x10A0, 0xFFFF)
  | .decodeMbA _ _ _ => (0x10B0, 0xFFFF)
  | .decodeNamed _ _ => (0x1100, 0xFFFF)
  | .decodeAll _ => (0x1200, 0xFFFE)
  | .execute _ _ _ => (0x2000, 0xFFFF)
  | .abort => (0x2F00, 0xFFFF)
  | .status => (0x3000, 0xFFFF)

/-- The first two bytes of the request, masked, are the row's match. -/
def Statement (i : Instr) : Prop :=
  ∃ hi lo rest, encodeBytes i = hi :: lo :: rest ∧ be16 hi lo &&& (row i).2 = (row i).1

theorem build (cmd : Byte) (p : List Byte) : Statement (.build cmd p) :=
  ⟨_, _, _, rfl, (by decide : be16 0x01 0x00 &&& 0xFFFF = 0x0100)⟩
theorem validate (e : Option Byte) (bs : List Byte) : Statement (.validate e bs) := by
  cases e
  · exact ⟨_, _, _, rfl, (by decide : be16 0x02 0x00 &&& 0xFFFE = 0x0200)⟩
  · exact ⟨_, _, _, rfl, (by decide : be16 0x02 0x01 &&& 0xFFFE = 0x0200)⟩
theorem parse (bs : List Byte) : Statement (.parse bs) :=
  ⟨_, _, _, rfl, (by decide : be16 0x03 0x00 &&& 0xFFFF = 0x0300)⟩
theorem decodeBit (r : Representation) (b : BitVec 3) (o : Half) (buf : List Byte) :
    Statement (.decodeBit r b o buf) := by
  refine ⟨_, _, _, rfl, ?_⟩
  change be16 0x10 (krByte 0 r b) &&& 0xFFC8 = 0x1000
  cases r <;> revert b <;> decide
theorem decodeByteU (o : Half) (buf : List Byte) : Statement (.decodeByteU o buf) :=
  ⟨_, _, _, rfl, (by decide : be16 0x10 (krByte 1 .unsigned 0) &&& 0xFFFF = 0x1040)⟩
theorem decodeByteS (o : Half) (buf : List Byte) : Statement (.decodeByteS o buf) :=
  ⟨_, _, _, rfl, (by decide : be16 0x10 (krByte 1 .signed 0) &&& 0xFFFF = 0x1050)⟩
theorem decodeByteH (o : Half) (buf : List Byte) : Statement (.decodeByteH o buf) :=
  ⟨_, _, _, rfl, (by decide : be16 0x10 (krByte 1 .hex 0) &&& 0xFFFF = 0x1060)⟩
theorem decodeByteA (o : Half) (buf : List Byte) : Statement (.decodeByteA o buf) :=
  ⟨_, _, _, rfl, (by decide : be16 0x10 (krByte 1 .ascii 0) &&& 0xFFFF = 0x1070)⟩
theorem decodeMbU (o : Half) (l : Byte) (buf : List Byte) : Statement (.decodeMbU o l buf) :=
  ⟨_, _, _, rfl, (by decide : be16 0x10 (krByte 2 .unsigned 0) &&& 0xFFFF = 0x1080)⟩
theorem decodeMbS (o : Half) (l : Byte) (buf : List Byte) : Statement (.decodeMbS o l buf) :=
  ⟨_, _, _, rfl, (by decide : be16 0x10 (krByte 2 .signed 0) &&& 0xFFFF = 0x1090)⟩
theorem decodeMbH (o : Half) (l : Byte) (buf : List Byte) : Statement (.decodeMbH o l buf) :=
  ⟨_, _, _, rfl, (by decide : be16 0x10 (krByte 2 .hex 0) &&& 0xFFFF = 0x10A0)⟩
theorem decodeMbA (o : Half) (l : Byte) (buf : List Byte) : Statement (.decodeMbA o l buf) :=
  ⟨_, _, _, rfl, (by decide : be16 0x10 (krByte 2 .ascii 0) &&& 0xFFFF = 0x10B0)⟩
theorem decodeNamed (i : Half) (buf : List Byte) : Statement (.decodeNamed i buf) :=
  ⟨_, _, _, rfl, (by decide : be16 0x11 0x00 &&& 0xFFFF = 0x1100)⟩
theorem decodeAll (buf : Option (List Byte)) : Statement (.decodeAll buf) := by
  cases buf
  · exact ⟨_, _, _, rfl, (by decide : be16 0x12 0x00 &&& 0xFFFE = 0x1200)⟩
  · exact ⟨_, _, _, rfl, (by decide : be16 0x12 0x01 &&& 0xFFFE = 0x1200)⟩
theorem execute (c r : Byte) (p : List Byte) : Statement (.execute c r p) :=
  ⟨_, _, _, rfl, (by decide : be16 0x20 0x00 &&& 0xFFFF = 0x2000)⟩
theorem abort : Statement .abort :=
  ⟨_, _, _, rfl, (by decide : be16 0x2F 0x00 &&& 0xFFFF = 0x2F00)⟩
theorem status : Statement .status :=
  ⟨_, _, _, rfl, (by decide : be16 0x30 0x00 &&& 0xFFFF = 0x3000)⟩

end Sys2Proof.Laws.HeadWord
end

