-- ==== Sys2Proof/Laws/Sequencer.lean ====
section
/-! SUPPORT. Everything a sequencer step can do (41_request_sequencer.md R134-R142), one inversion lemma
per phase; every invariant of the sequencer is derived from these. -/

namespace Sys2Proof.Machine

/-- An attempt start either completes the EXECUTE with RETRIES_EXHAUSTED or enters FLUSH (R134). -/
theorem attemptStart_cases (s : State) :
    (s.seq.attempt.toNat = s.seq.maxRetries.toNat + 1 ∧ attemptStart s = complete .retriesExhausted s) ∨
    (s.seq.attempt.toNat ≠ s.seq.maxRetries.toNat + 1 ∧ attemptStart s = { s with seq := { s.seq with
      attempt := s.seq.attempt + 1, rxHdr := [], rxBody := [], bodyLen := 0, phase := .flush } }) := by
  by_cases h : s.seq.attempt.toNat = s.seq.maxRetries.toNat + 1
  · exact .inl ⟨h, attemptStart_exhausted h⟩
  · exact .inr ⟨h, attemptStart_next h⟩

/-- FLUSH ends the EXECUTE, or empties LINK.RX and goes to SEND (R135). -/
theorem flushStep_cases (d : LinkDraw) (s : State) :
    (linkFails d s.link = true ∧ flushStep d s =
      transportFailure { s.link with rx := d.rxAfter, log := s.link.log ++ [.flush false] } s) ∨
    (linkFails d s.link = false ∧ flushStep d s =
      { s with link := { s.link with rx := [], log := s.link.log ++ [.flush true] }
               seq := { s.seq with phase := .send } }) := by
  rcases linkFlush_cases d s.link with ⟨h, e⟩ | ⟨h, e⟩
  · exact .inl ⟨h, by rw [flushStep, e]⟩
  · exact .inr ⟨h, by rw [flushStep, e]⟩

/-- SEND counts the write, and ends the EXECUTE or goes to RX_HDR (R137). -/
theorem sendStep_cases (d : LinkDraw) (s : State) :
    (linkFails d s.link = true ∧ sendStep d s =
      transportFailure { s.link with
          rx := s.link.rx ++ d.arrived,
          log := s.link.log ++ [.write s.seq.txFrame (min d.count s.seq.txFrame.length) false] }
        { s with seq := { s.seq with writeCount := s.seq.writeCount + 1 } }) ∨
    (linkFails d s.link = false ∧ sendStep d s =
      { s with
        link := { s.link with
          rx := s.link.rx ++ d.arrived,
          log := s.link.log ++ [.write s.seq.txFrame s.seq.txFrame.length true] }
        seq := { s.seq with writeCount := s.seq.writeCount + 1, phase := .rxHdr } }) := by
  rcases linkWrite_cases s.seq.txFrame d s.link with ⟨h, e⟩ | ⟨h, e⟩
  · exact .inl ⟨h, by simp only [sendStep, e]⟩
  · exact .inr ⟨h, by simp only [sendStep, e]⟩

/-- RX_HDR ends the EXECUTE, fails the attempt on a short header, or goes to RX_BODY (R138). -/
theorem rxHdrStep_cases (d : LinkDraw) (s : State) :
    (linkFails d s.link = true ∧ rxHdrStep d s =
      transportFailure { s.link with rx := d.rxAfter, log := s.link.log ++ [.read 2 none] } s) ∨
    (linkFails d s.link = false ∧ ∃ h rest, h.length ≤ 2 ∧ s.link.rx ++ d.arrived = h ++ rest ∧
      (h.length < 2 ∧ rxHdrStep d s = failAttempt .shortHeader { s with
          link := { s.link with rx := rest, log := s.link.log ++ [.read 2 (some h)] }
          seq := { s.seq with rxHdr := h } } ∨
        h.length = 2 ∧ rxHdrStep d s = { s with
          link := { s.link with rx := rest, log := s.link.log ++ [.read 2 (some h)] }
          seq := { s.seq with rxHdr := h, bodyLen := BitVec.ofNat 8 (bodyLength h), phase := .rxBody } })) := by
  rcases linkRead_cases 2 d s.link with ⟨hf, e⟩ | ⟨hf, h, rest, hl, hr, e⟩
  · exact .inl ⟨hf, by simp only [rxHdrStep, Config.hdrLen, e]⟩
  · refine .inr ⟨hf, h, rest, hl, hr, ?_⟩
    by_cases h2 : h.length < 2
    · exact .inl ⟨h2, by simp only [rxHdrStep, Config.hdrLen, e]; rw [if_pos h2]⟩
    · exact .inr ⟨by omega, by simp only [rxHdrStep, Config.hdrLen, e]; rw [if_neg h2]⟩

/-- RX_BODY ends the EXECUTE, fails the attempt on a short body, or goes to CHECK (R139). -/
theorem rxBodyStep_cases (d : LinkDraw) (s : State) :
    (linkFails d s.link = true ∧ rxBodyStep d s =
      transportFailure { s.link with
        rx := d.rxAfter, log := s.link.log ++ [.read s.seq.bodyLen.toNat none] } s) ∨
    (linkFails d s.link = false ∧ ∃ b rest, b.length ≤ s.seq.bodyLen.toNat ∧
      s.link.rx ++ d.arrived = b ++ rest ∧
      (b.length < s.seq.bodyLen.toNat ∧ rxBodyStep d s = failAttempt .shortBody { s with
          link := { s.link with rx := rest, log := s.link.log ++ [.read s.seq.bodyLen.toNat (some b)] }
          seq := { s.seq with rxBody := b } } ∨
        b.length = s.seq.bodyLen.toNat ∧ rxBodyStep d s = { s with
          link := { s.link with rx := rest, log := s.link.log ++ [.read s.seq.bodyLen.toNat (some b)] }
          seq := { s.seq with rxBody := b, phase := .check } })) := by
  rcases linkRead_cases s.seq.bodyLen.toNat d s.link with ⟨hf, e⟩ | ⟨hf, b, rest, hl, hr, e⟩
  · exact .inl ⟨hf, by simp only [rxBodyStep, e]⟩
  · refine .inr ⟨hf, b, rest, hl, hr, ?_⟩
    by_cases h2 : b.length < s.seq.bodyLen.toNat
    · exact .inl ⟨h2, by simp only [rxBodyStep, e]; rw [if_pos h2]⟩
    · exact .inr ⟨by omega, by simp only [rxBodyStep, e]; rw [if_neg h2]⟩

/-- CHECK completes the EXECUTE with OK, or fails the attempt (R140-R142). -/
theorem checkStep_cases (s : State) :
    (validate (rxFrame s) (some s.seq.reqCmd) = true ∧ checkStep s =
      complete .ok { s with seq := { s.seq with respPayload := framePayload (rxFrame s) } }) ∨
    (validate (rxFrame s) (some s.seq.reqCmd) = false ∧ checkStep s = failAttempt .invalidFrame s) := by
  cases h : validate (rxFrame s) (some s.seq.reqCmd) <;> simp [checkStep, h]

end Sys2Proof.Machine
end

