-- ==== Sys2Proof/Tests/Slice0.lean ====
section
/-! SUPPORT. Tests of the model against spec/95_test_vectors.md (the id of the vector stands in each name or
comment), the smoke test of WellFormed, and for each obligation with hypotheses a state and operands that
meet them. -/

namespace Sys2Proof.Tests

open Sys2Proof.Machine Sys2Proof.Cert

/-! ### The states of the tests -/

/-- The test schema `S_T` of program P3. -/
def schemaT : List SchemaEntry :=
  [ ⟨"foot_switch".toList, 0x15, .bit 0, .unsigned, none, false⟩,
    ⟨"sw_level".toList, 0x15, .bit 1, .unsigned, none, false⟩,
    ⟨"change_dir".toList, 0x15, .bit 7, .unsigned, none, false⟩,
    ⟨"model_name".toList, 0x00, .multibyte 8, .ascii, none, false⟩,
    ⟨"temp_offset".toList, 0x08, .byte, .signed, none, false⟩,
    ⟨"serial".toList, 0x09, .multibyte 4, .hex, none, false⟩,
    ⟨"max_current".toList, 0x0D, .multibyte 2, .unsigned, none, false⟩,
    ⟨"far_field".toList, 0x40, .byte, .unsigned, none, false⟩ ]

/-- BUF22 of program P3. -/
def buf22 : List Byte :=
  [0x4D, 0x4F, 0x54, 0x4F, 0x52, 0, 0, 0, 0xF6, 0xDE, 0xAD, 0xBE, 0xEF, 0x01, 0x2C, 0, 0, 0, 0, 0, 0, 0x83]

/-- The parameters of the vectors: `S_T`, and 0xF2 for CMD_CONFIG_WRITE. -/
def paramsT (ah : AsciiHigh) : Params := ⟨0, schemaT, [], 0xF2, ah⟩

/-- The reset state of the vectors, with these inputs and an open link. -/
def idleT (ah : AsciiHigh) (inputs : List Event) : State :=
  { params := paramsT ah, seq := Sequencer.reset, link := ⟨[], true, []⟩, inputs := inputs, results := [],
    drawCount := 0 }

/-- A sequencer in an attempt for EXECUTE 0x3A, with these registers. -/
def seqT (phase : Phase) (attempt : Half) (ret : Byte) (writes : Half) (bodyLen : Byte) (hdr body : List Byte) :
    Sequencer :=
  { Sequencer.reset with
    phase := phase, attempt := attempt, maxRetries := ret, reqCmd := 0x3A, writeCount := writes,
    bodyLen := bodyLen, txFrame := [0x3A, 0, 0x3A], rxHdr := hdr, rxBody := body }

/-- The block in the middle of an EXECUTE. -/
def busyT (q : Sequencer) (inputs : List Event) : State := { idleT .absent inputs with seq := q }

/-- The link answers with these bytes. -/
def answerDraw (bs : List Byte) : LinkDraw := ⟨bs, true, bs.length, []⟩

/-- The link primitive fails. -/
def failDraw : LinkDraw := ⟨[], false, 0, []⟩

/-- The results and registers after one step. -/
def outcome (s : State) : Option (List Delivery × Sequencer) :=
  match step s with
  | .next t => some (t.results, t.seq)
  | .fault _ => none
  | .refused _ => none

/-- The status and value a request gets in the reset state, and whether the registers kept their values. -/
def reply (ah : AsciiHigh) (r : List Byte) : Option (Status × Option Value × Bool) :=
  match outcome (idleT ah [.request r]) with
  | some ([⟨.immediate, ⟨st, v⟩⟩], q) => some (st, v, decide (q = Sequencer.reset))
  | _ => none

/-- The STATUS record after one step. -/
def record (s : State) : Option (List Byte) := (outcome s).map fun o => statusRecord o.2

/-! ### WellFormed: each check refuses an ill-formed term -/

theorem test_payloadFits : payloadFits (List.replicate 256 0) = false := by
  rw [payloadFits, List.length_replicate]; decide
theorem test_bufferFits : bufferFits (List.replicate 65536 0) = false := by
  rw [bufferFits, List.length_replicate]; decide
theorem test_lenLegal : Instr.wf (.decodeMbU 0 0 []) = false := by decide
theorem test_schemaWf_length :
    schemaWf [⟨['a'], 0, .multibyte 0, .ascii, none, false⟩] = false := by decide
theorem test_schemaWf_names :
    schemaWf [⟨['a'], 0, .byte, .hex, none, false⟩, ⟨['a'], 1, .byte, .hex, none, false⟩] = false := by decide
theorem test_schemaWf_count (e : SchemaEntry) : schemaWf (List.replicate 65536 e) = false := by
  rw [schemaWf, List.length_replicate]
  exact Bool.and_false _
theorem test_schemaKnown : schemaLegal (schemaT.drop 1) = false ∧ schemaLegal schemaT = true := by decide

/-! ### Decoding: a word of each constructor, written out from R82-R86 -/

theorem test_decode_build : decode [0x01, 0x00, 0xFF, 0x01, 0x01] = .instr (.build 0xFF [1]) := by decide
theorem test_decode_validate :
    decode [0x02, 0x00, 0x00, 0x00, 0x03, 0x3A, 0x00, 0x3A] = .instr (.validate none [0x3A, 0, 0x3A]) ∧
    decode [0x02, 0x01, 0x3B, 0x00, 0x03, 0x3A, 0x00, 0x3A] = .instr (.validate (some 0x3B) [0x3A, 0, 0x3A]) := by
  decide
theorem test_decode_parse : decode [0x03, 0x00, 0x00, 0x02, 0x3A, 0x00] = .instr (.parse [0x3A, 0]) := by decide
theorem test_decode_bit :
    decode [0x10, 0x07, 0x00, 0x15, 0x00, 0x00, 0x01, 0xAA] = .instr (.decodeBit .unsigned 7 0x15 [0xAA]) := by
  decide
theorem test_decode_byteU :
    decode [0x10, 0x40, 0x01, 0x02, 0x00, 0x00, 0x01, 0x83] = .instr (.decodeByteU 0x0102 [0x83]) := by decide
theorem test_decode_byteS :
    decode [0x10, 0x50, 0x00, 0x00, 0x00, 0x00, 0x01, 0x83] = .instr (.decodeByteS 0 [0x83]) := by decide
theorem test_decode_byteH :
    decode [0x10, 0x60, 0x00, 0x00, 0x00, 0x00, 0x01, 0x0A] = .instr (.decodeByteH 0 [0x0A]) := by decide
theorem test_decode_byteA :
    decode [0x10, 0x70, 0x00, 0x00, 0x00, 0x00, 0x01, 0x41] = .instr (.decodeByteA 0 [0x41]) := by decide
theorem test_decode_mbU :
    decode [0x10, 0x80, 0xFF, 0xFE, 0x01, 0x00, 0x01, 0x05] = .instr (.decodeMbU 0xFFFE 1 [5]) := by decide
theorem test_decode_mbS :
    decode [0x10, 0x90, 0x00, 0x00, 0x02, 0x00, 0x02, 0xFF, 0xFF] = .instr (.decodeMbS 0 2 [0xFF, 0xFF]) := by
  decide
theorem test_decode_mbH :
    decode [0x10, 0xA0, 0x00, 0x00, 0x02, 0x00, 0x02, 0x00, 0x0A] = .instr (.decodeMbH 0 2 [0, 0x0A]) := by decide
theorem test_decode_mbA :
    decode [0x10, 0xB0, 0x00, 0x00, 0x03, 0x00, 0x03, 0x00, 0x41, 0x42] =
      .instr (.decodeMbA 0 3 [0, 0x41, 0x42]) := by decide
theorem test_decode_named :
    decode [0x11, 0x00, 0x00, 0x08, 0x00, 0x01, 0xAA] = .instr (.decodeNamed 8 [0xAA]) := by decide
theorem test_decode_all :
    decode [0x12, 0x01, 0x00, 0x00] = .instr (.decodeAll (some [])) ∧
    decode [0x12, 0x00, 0x00, 0x00] = .instr (.decodeAll none) := by decide
theorem test_decode_execute :
    decode [0x20, 0x00, 0x3A, 0x02, 0x01, 0x07] = .instr (.execute 0x3A 2 [7]) := by decide
theorem test_decode_abort : decode [0x2F, 0x00] = .instr .abort := by decide
theorem test_decode_status : decode [0x30, 0x00] = .instr .status := by decide

/-- ENC1-ENC4. -/
theorem test_illegal : ∀ r ∈ ([[0x05, 0x00], [0x01], [], [0xFF, 0x00]] : List (List Byte)), decode r = .illegal := by
  decide

/-- ENC5-ENC18. -/
theorem test_malformed : ∀ r ∈ ([[0x01, 0, 0x3A, 2, 0x10], [0x01, 0, 0x3A, 0, 0], [0x01, 1, 0x3A, 0],
    [0x02, 2, 0, 0, 0], [0x02, 0, 0x3A, 0, 3, 0x3A, 0, 0x3A], [0x10, 0x48, 0, 0, 0, 0, 1, 0],
    [0x10, 0xC0, 0, 0, 0, 0, 1, 0], [0x10, 0x41, 0, 0, 0, 0, 1, 0], [0x10, 0x80, 0, 0, 0, 0, 1, 0],
    [0x10, 0x00, 0, 0, 1, 0, 1, 0], [0x12, 0, 0, 1, 0xAA], [0x30, 1], [0x2F, 0, 0], [0x20, 0, 0x3A, 0, 1]] :
      List (List Byte)), decode r = .malformed := by decide

/-- A table word: EXECUTE's head word with zero operand words runs as the first instruction after reset. -/
theorem test_tableWord :
    decodeTableWord 16 0x2000 = some (.execute 0 0 []) ∧ decodeTableWord 16 0x1007 = some (.decodeBit .unsigned 7 0 []) := by
  decide

/-! ### One step per instruction -/

theorem test_BLD3 : reply .absent [0x01, 0, 0xFF, 1, 1] = some (.ok, some (.bytes [0xFF, 1, 1, 1]), true) := by decide
theorem test_BLD7 : reply .absent ([0x01, 0, 1, 0x11] ++ List.replicate 17 0) =
    some (.ok, some (.bytes ([1, 0x11] ++ List.replicate 17 0 ++ [0x12])), true) := by decide
theorem test_VAL8 : reply .absent [0x02, 0, 0, 0, 7, 0x4C, 3, 1, 2, 3, 0x55, 0x99] =
    some (.ok, some (.bool true), true) := by decide
theorem test_VAL3 : reply .absent [0x02, 1, 0x3B, 0, 3, 0x3A, 0, 0x3A] = some (.ok, some (.bool false), true) := by
  decide
theorem test_PRS5 : reply .absent [0x03, 0, 0, 7, 0x4C, 3, 1, 2, 3, 0x55, 0x99] =
    some (.ok, some (.frame 0x4C [1, 2, 3]), true) := by decide
theorem test_PRS6 : reply .absent [0x03, 0, 0, 6, 0x4C, 3, 1, 2, 3, 0x56] = some (.invalid, none, true) := by decide
theorem test_DEC9 : reply .absent ([0x10, 0x37, 0, 0x15, 0, 0, 0x16] ++ buf22) =
    some (.ok, some (.decoded (.uint 1)), true) := by decide
theorem test_DEC10 : reply .absent ([0x10, 0x00, 0, 0x16, 0, 0, 0x16] ++ buf22) = some (.absent, none, true) := by
  decide
theorem test_DEC20 : reply .absent [0x10, 0x40, 0, 7, 0, 0, 8, 0, 1, 2, 3, 4, 5, 6, 7] =
    some (.ok, some (.decoded (.uint 7)), true) := by decide
theorem test_DEC21 : reply .absent [0x10, 0x40, 0, 8, 0, 0, 8, 0, 1, 2, 3, 4, 5, 6, 7] =
    some (.absent, none, true) := by decide
theorem test_DEC15 : reply .absent [0x10, 0x50, 0, 0, 0, 0, 1, 0x80] =
    some (.ok, some (.decoded (.sint (-128))), true) := by decide
theorem test_DEC14 : reply .absent [0x10, 0x50, 0, 0, 0, 0, 1, 0x7F] =
    some (.ok, some (.decoded (.sint 127)), true) := by decide
theorem test_DEC18 : reply .absent [0x10, 0x60, 0, 0, 0, 0, 1, 0x0A] =
    some (.ok, some (.decoded (.uint 10)), true) := by decide
theorem test_DEC19 : reply .absent [0x10, 0x70, 0, 0, 0, 0, 1, 0x41] =
    some (.ok, some (.decoded (.uint 65)), true) := by decide
theorem test_DEC23 : reply .absent ([0x10, 0x80, 0, 0, 9, 0, 9] ++ List.replicate 9 0xFF) =
    some (.ok, some (.decoded (.uint 4722366482869645213695)), true) := by decide
theorem test_DEC34 : reply .absent [0x10, 0x80, 0, 5, 4, 0, 8, 0, 1, 2, 3, 4, 5, 6, 7] =
    some (.absent, none, true) := by decide
theorem test_DEC26 : reply .absent [0x10, 0x90, 0, 0, 2, 0, 2, 0x80, 0] =
    some (.ok, some (.decoded (.uint 32768)), true) := by decide
theorem test_DEC27 : reply .absent ([0x10, 0xA0, 0, 9, 4, 0, 0x16] ++ buf22) =
    some (.ok, some (.decoded (.hex "deadbeef".toList)), true) := by decide
theorem test_DEC28 : reply .absent [0x10, 0xA0, 0, 0, 2, 0, 2, 0, 0x0A] =
    some (.ok, some (.decoded (.hex "000a".toList)), true) := by decide
theorem test_DEC30 : reply .absent [0x10, 0xB0, 0, 0, 4, 0, 4, 0x41, 0, 0x42, 0] =
    some (.ok, some (.decoded (.ascii ['A', '\x00', 'B'])), true) := by decide
/-- DEC32, for `absent` and for `latin1`. -/
theorem test_DEC32 :
    reply .absent [0x10, 0xB0, 0, 0, 3, 0, 3, 0x41, 0xC1, 0] = some (.absent, none, true) ∧
    reply .latin1 [0x10, 0xB0, 0, 0, 3, 0, 3, 0x41, 0xC1, 0] =
      some (.ok, some (.decoded (.ascii ['A', Char.ofNat 0xC1])), true) := by decide
theorem test_NAM2 : reply .absent ([0x11, 0, 0, 3, 0, 0x16] ++ buf22) =
    some (.ok, some (.decoded (.ascii "MOTOR".toList)), true) := by decide
theorem test_NAM4 : reply .absent ([0x11, 0, 0, 8, 0, 0x16] ++ buf22) = some (.absent, none, true) := by decide
theorem test_ALL5 : reply .absent ([0x12, 1, 0, 0x15] ++ buf22.take 21) = some (.ok, some (.view
    [("model_name".toList, .ascii "MOTOR".toList), ("temp_offset".toList, .sint (-10)),
     ("serial".toList, .hex "deadbeef".toList), ("max_current".toList, .uint 300)]), true) := by decide
theorem test_ALL3 : reply .absent [0x12, 0, 0, 0] = some (.ok, some (.view []), true) := by decide

/-- EXE10: 12 bytes to CMD_CONFIG_WRITE. -/
theorem test_EXE10 :
    record (idleT .absent [.request ([0x20, 0, 0xF2, 0, 0x0C] ++ List.replicate 12 0)]) =
      some [0, 0, 0, 0, 0xF2, 0, 0, 5, 0, 0] := by decide
/-- AST4: an EXECUTE while RX_HDR is BUSY and changes no register. -/
theorem test_AST4 : outcome (busyT (seqT .rxHdr 1 1 1 0 [] []) [.request [0x20, 0, 0x4C, 0, 0]]) =
    some ([⟨.immediate, ⟨.busy, none⟩⟩], seqT .rxHdr 1 1 1 0 [] []) := by decide
/-- AST6: ABORT in SEND; no write was issued. -/
theorem test_AST6 : record (busyT (seqT .send 1 1 0 0 [] []) [.request [0x2F, 0]]) =
    some [0, 0, 1, 1, 0x3A, 0, 0, 9, 0, 0] := by decide
/-- AST3: STATUS while RX_HDR. -/
theorem test_AST3 : outcome (busyT (seqT .rxHdr 1 1 1 0 [] []) [.request [0x30, 0]]) =
    some ([⟨.immediate, ⟨.ok, some (.bytes [3, 0, 1, 1, 0x3A, 0, 1, 0xFF, 0, 0])⟩⟩], seqT .rxHdr 1 1 1 0 [] []) := by
  decide

/-! ### One step per phase -/

/-- P2, attempt 1: the flush. -/
theorem test_flush : outcome (busyT (seqT .flush 1 2 0 0 [] []) [.block (answerDraw [])]) =
    some ([], seqT .send 1 2 0 0 [] []) := by decide
/-- EXE8: a failing write is counted. -/
theorem test_EXE8 : record (busyT (seqT .send 1 5 0 0 [] []) [.block failDraw]) =
    some [0, 0, 1, 5, 0x3A, 0, 1, 4, 0, 0] := by decide
/-- P4: a declared length of 0x14 is clamped: 17 bytes are read. -/
theorem test_P4_header : outcome (busyT (seqT .rxHdr 1 0 1 0 [] []) [.block (answerDraw [0x3A, 0x14])]) =
    some ([], seqT .rxBody 1 0 1 17 [0x3A, 0x14] []) := by decide
/-- EXE3: the second short header ends the EXECUTE. -/
theorem test_EXE3 : record (busyT (seqT .rxHdr 2 1 2 0 [] []) [.block (answerDraw [0x3A])]) =
    some [0, 0, 2, 1, 0x3A, 0, 2, 3, 1, 0] := by decide
/-- EXE4: a short body. -/
theorem test_EXE4 : record (busyT (seqT .rxBody 1 0 1 3 [0x3A, 2] []) [.block (answerDraw [0x10, 0x20])]) =
    some [0, 0, 1, 0, 0x3A, 0, 1, 3, 2, 3] := by decide
/-- P2, attempt 3: the check accepts the frame. -/
theorem test_P2_check :
    (outcome (busyT (seqT .check 3 2 3 3 [0x3A, 2] [0x10, 0x20, 0x6C]) [.block (answerDraw [])])).map Prod.fst =
      some [⟨.execute, ⟨.ok, some (.bytes [0x10, 0x20])⟩⟩] := by decide
/-- EXE2: a wrong command byte. -/
theorem test_EXE2 : record (busyT (seqT .check 1 0 1 1 [0x3B, 0] [0x3B]) [.block (answerDraw [])]) =
    some [0, 0, 1, 0, 0x3A, 0, 1, 3, 3, 1] := by decide
/-- A closed link fails every primitive (R235). -/
theorem test_closed : (outcome { busyT (seqT .flush 1 2 0 0 [] []) [.block (answerDraw [])] with
    link := ⟨[], false, []⟩ }).map Prod.fst = some [⟨.execute, ⟨.transportFailure, none⟩⟩] := by decide

/-! ### The assembler -/

/-- P1 step 1. -/
theorem test_asm_build : assembleLine [] "BUILD 0x4C, [0x01, 0x02, 0x03]".toList =
    some [0x01, 0x00, 0x4C, 0x03, 0x01, 0x02, 0x03] := by decide
/-- P1 step 3, and P3 steps 3 and 4 on an empty buffer. -/
theorem test_asm_pseudo :
    assembleLine [] "CHECK [0x4C, 0x00, 0x4C], 0x4C ; ok".toList =
      some [0x02, 0x01, 0x4C, 0x00, 0x03, 0x4C, 0x00, 0x4C] ∧
    assembleLine schemaT "DECODE far_field, []".toList = some [0x11, 0x00, 0x00, 0x07, 0x00, 0x00] ∧
    assembleLine schemaT "DECODE speed, []".toList = some [0x11, 0x00, 0xFF, 0xFF, 0x00, 0x00] := by decide
theorem test_asm_quoted : assembleLine [] "DECODE.MB.A 0, 2, \"M\\0\"".toList =
    some [0x10, 0xB0, 0x00, 0x00, 0x02, 0x00, 0x02, 0x4D, 0x00] := by decide
theorem test_disassemble :
    disassemble (.decodeBit .ascii 7 0x15 []) = "DECODE.BIT.A 0x0015, 7, []".toList := by decide

/-! ### Witnesses: states and operands that meet the hypotheses of the obligations -/

/-- The longest buffer, and one byte more. -/
def longest : List Byte := List.replicate 65535 0

theorem longest_length : longest.length = 65535 := List.length_replicate

/-- The longest payload. -/
def payload255 : List Byte := List.replicate 255 1

theorem payload255_length : payload255.length = 255 := List.length_replicate

/-- BLD2's frame is valid; PRS3's is cut short. -/
theorem frameOk_BLD2 : FrameOk [0x4C, 3, 1, 2, 3, 0x55] := by unfold FrameOk; decide
theorem not_frameOk_PRS3 : ¬ FrameOk [0x4C, 3, 1, 2, 3] := by unfold FrameOk; decide

theorem witness_BuildReturnsTheFrame : payload255.length ≤ 255 ∧ ([] : List Byte).length ≤ 255 :=
  ⟨payload255_length.le, by decide⟩
theorem witness_ValidateAnswersTheFourChecks :
    longest.length ≤ 65535 ∧ FrameOk [0x4C, 3, 1, 2, 3, 0x55] ∧ ¬ FrameOk [0x4C, 3, 1, 2, 3] :=
  ⟨longest_length.le, frameOk_BLD2, not_frameOk_PRS3⟩
theorem witness_ParseReturnsCommandAndPayload :
    ([0x4C, 3, 1, 2, 3, 0x55] : List Byte).length ≤ 65535 ∧ FrameOk [0x4C, 3, 1, 2, 3, 0x55] ∧
    ([0x4C, 3, 1, 2, 3] : List Byte).length ≤ 65535 ∧ ¬ FrameOk [0x4C, 3, 1, 2, 3] :=
  ⟨by decide, frameOk_BLD2, by decide, not_frameOk_PRS3⟩
theorem witness_BuiltFramesValidate :
    ([1, 2, 3] : List Byte).length ≤ 255 ∧ ([1, 2, 3] : List Byte).Perm [3, 2, 1] := by decide
theorem witness_SingleBitFlipsAreDetected :
    ([1, 2, 3] : List Byte).length ≤ 255 ∧ (∀ i ∈ [0, 2, 5], i < ([1, 2, 3] : List Byte).length + 3 ∧ i ≠ 1) ∧ 7 < 8 := by
  decide
theorem witness_ParseInvertsBuild : payload255.length ≤ 255 ∧
    FrameOk [0x4C, 3, 1, 2, 3, 0x55] ∧
    ([0x4C, 3, 1, 2, 3, 0x55] : List Byte).length = 3 + lengthByte [0x4C, 3, 1, 2, 3, 0x55] :=
  ⟨payload255_length.le, frameOk_BLD2, by decide⟩

/-- For every statement whose hypothesis bounds a buffer: the two ends of the range. At offset 21 of BUF22
there is a byte, at offset 22 there is none. -/
theorem witness_decode_buffers : longest.length ≤ 65535 ∧ ([] : List Byte).length ≤ 65535 ∧
    buf22.length ≤ 65535 ∧ buf22[(21 : Half).toNat]? = some 0x83 ∧ buf22[(22 : Half).toNat]? = none :=
  ⟨longest_length.le, by decide, by decide, by decide, by decide⟩
theorem witness_DecodeBitReadsOneBit : buf22.length ≤ 65535 := witness_decode_buffers.2.2.1
theorem witness_DecodeByteReadsUnsigned : buf22.length ≤ 65535 := witness_decode_buffers.2.2.1
theorem witness_DecodeByteSignedIsTwosComplement : buf22.length ≤ 65535 := witness_decode_buffers.2.2.1
/-- A field that ends with the buffer is inside it (DEC33), one byte further it is not (DEC34). -/
theorem witness_DecodeMultibyteIsBigEndian : (4 : Byte) ≠ 0 ∧ (255 : Byte) ≠ 0 ∧ longest.length ≤ 65535 ∧
    (4 : Half).toNat + (4 : Byte).toNat ≤ 8 ∧ ¬ (5 : Half).toNat + (4 : Byte).toNat ≤ 8 :=
  ⟨by decide, by decide, longest_length.le, by decide, by decide⟩
theorem witness_DecodeMultibyteHexRendersDigits : (4 : Byte) ≠ 0 ∧ buf22.length ≤ 65535 := by decide
/-- DEC24, DEC29 and DEC32: a text, an empty text and a text with a high byte; a field one byte too long. -/
theorem witness_DecodeMultibyteAsciiStripsNuls : (8 : Byte) ≠ 0 ∧ buf22.length ≤ 65535 ∧
    buf22.length < (15 : Half).toNat + (8 : Byte).toNat ∧ (14 : Half).toNat + (8 : Byte).toNat ≤ buf22.length ∧
    (buf22.drop 0).take 8 = [0x4D, 0x4F, 0x54, 0x4F, 0x52] ++ List.replicate 3 0 ∧
    ([0, 0, 0, 0] : List Byte) = [] ++ List.replicate 4 0 ∧
    ([0x41, 0xC1, 0] : List Byte) = [0x41, 0xC1] ++ List.replicate 1 0 ∧
    (∀ b ∈ ([0x4D, 0x4F, 0x54, 0x4F, 0x52] : List Byte), b.toNat < 0x80) ∧
    (∃ b ∈ ([0x41, 0xC1] : List Byte), 0x80 ≤ b.toNat) ∧
    ([0x41, 0xC1] : List Byte).getLast? ≠ some 0 ∧
    (∀ ah, (idleT ah []).params.asciiHigh = ah) :=
  ⟨by decide, by decide, by decide, by decide, by decide, by decide, by decide, by decide, by decide, by decide,
    fun _ => rfl⟩
theorem witness_ZeroLengthMultibyteIsMalformed : ([0] : List Byte).length ≤ 65535 := by decide
theorem witness_DecodeFieldFollowsKindAndRepresentation :
    (∀ e ∈ schemaT, e.wf = true) ∧ buf22.length ≤ 65535 := by decide
/-- NAM4 and NAM3: the first unknown index and the last known one. -/
theorem witness_DecodeNamedReadsTheSchema : buf22.length ≤ 65535 ∧
    (idleT .absent []).params.schema.length ≤ (8 : Half).toNat ∧
    (idleT .absent []).params.schema[(7 : Half).toNat]? =
      some ⟨"far_field".toList, 0x40, .byte, .unsigned, none, false⟩ := by decide
theorem witness_DecodeAllCollectsPresentFields : buf22.length ≤ 65535 := by decide
theorem witness_ViewsOfLegalSchemas : schemaWf (paramsT .draw).schema = true := by decide
theorem witness_DecodedFieldsSurviveLongerBuffers :
    decodeField .draw buf22 ⟨"temp_offset".toList, 0x08, .byte, .signed, none, false⟩ = some (.sint (-10)) := by
  decide

theorem witness_PureOperationsOnlyAnswer :
    isPure (.build 0x3A []) = true ∧ (Instr.build 0x3A []).wf = true ∧
    (idleT .absent []).params = paramsT .absent := by decide
theorem witness_PureOperationsCommuteWithTheSequencer :
    isPure (.build 0x3A []) = true ∧
    (∃ t, exec (.build 0x3A []) (busyT (seqT .flush 1 2 0 0 [] []) []) = .next t) ∧
    ∃ u, exec (.build 0x3A []) (seqStep (answerDraw []) (busyT (seqT .flush 1 2 0 0 [] []) [])) = .next u :=
  ⟨rfl, ⟨_, rfl⟩, ⟨_, rfl⟩⟩
/-- One byte too many, and exactly the most that can be encoded. -/
theorem witness_OversizeOperandsAreRefused :
    Oversize (.build 0x3A (List.replicate 256 0)) ∧ ¬ Oversize (.build 0x3A (List.replicate 255 0)) ∧
    Oversize (.parse (0 :: longest)) ∧ ¬ Oversize (.parse longest) := by
  simp only [Oversize, List.length_cons, longest_length, List.length_replicate]; omega

theorem witness_ExecuteWhileBusyAnswersBusy :
    (busyT (seqT .check 1 1 1 1 [0x3A, 0] [0x3A]) []).seq.phase ≠ .idle ∧ ([] : List Byte).length ≤ 255 := by decide
/-- 12 and 14 bytes: both sides of the one length that passes. -/
theorem witness_ExecuteChecksConfigWriteLength : (idleT .absent []).seq.phase = .idle ∧
    ∀ n ∈ [0, 12, 14, 255], (List.replicate n (0 : Byte)).length ≤ 255 ∧ (List.replicate n (0 : Byte)).length ≠ 13 := by
  simp only [List.length_replicate]; decide
/-- EXE11: the config write of 13 bytes; and another command. -/
theorem witness_ExecuteStartsTheFirstAttempt : (idleT .absent []).seq.phase = .idle ∧
    (0x3A : Byte) ≠ (idleT .absent []).params.cmdConfigWrite ∧ (List.replicate 13 (0 : Byte)).length = 13 := by decide
theorem witness_AbortEndsTheExecute :
    (idleT .absent []).seq.phase = .idle ∧ (busyT (seqT .send 1 1 0 0 [] []) []).seq.phase ≠ .idle := by decide
/-- The last attempt of 256, and the one before it. -/
theorem witness_AttemptStartIsBounded :
    (seqT .check 256 255 256 1 [] []).attempt.toNat = (seqT .check 256 255 256 1 [] []).maxRetries.toNat + 1 ∧
    (seqT .check 255 255 255 1 [] []).attempt.toNat ≠ (seqT .check 255 255 255 1 [] []).maxRetries.toNat + 1 := by
  decide

/-- For each phase with a link primitive: a state in it, a draw that succeeds on an open link, a draw that
fails, and a closed link. -/
theorem witness_phase_steps :
    (∀ p ∈ [Phase.flush, .send, .rxHdr, .rxBody, .check], (busyT (seqT p 1 1 0 3 [] []) []).seq.phase = p) ∧
    ((busyT (seqT .flush 1 1 0 0 [] []) []).link.ready = true ∧ (answerDraw [1, 2]).ok = true) ∧
    ¬ ((busyT (seqT .flush 1 1 0 0 [] []) []).link.ready = true ∧ failDraw.ok = true) ∧
    ¬ ((⟨[], false, []⟩ : Link).ready = true ∧ (answerDraw []).ok = true) := by decide
theorem witness_FlushStepEmptiesTheReceiveBuffer : (busyT (seqT .flush 1 1 0 0 [] []) []).seq.phase = .flush := rfl
theorem witness_SendStepTransmitsTheFrame : (busyT (seqT .send 1 1 0 0 [] []) []).seq.phase = .send := rfl
/-- The header reads of P4 (two bytes) and EXE3 (one byte) come from this state. -/
theorem witness_HeaderStepReadsTwoBytes : (busyT (seqT .rxHdr 1 1 1 0 [] []) []).seq.phase = .rxHdr ∧
    ((answerDraw [0x3A, 0x14]).arrived.take (min (answerDraw [0x3A, 0x14]).count 2)).length = 2 ∧
    ((answerDraw [0x3A]).arrived.take (min (answerDraw [0x3A]).count 2)).length < 2 := by decide
theorem witness_BodyStepReadsTheClampedLength :
    (busyT (seqT .rxBody 1 1 1 3 [0x3A, 2] []) []).seq.phase = .rxBody ∧
    ((answerDraw [0x10, 0x20, 0x6C]).arrived.take (min (answerDraw [0x10, 0x20, 0x6C]).count 3)).length = 3 ∧
    ((answerDraw [0x10, 0x20]).arrived.take (min (answerDraw [0x10, 0x20]).count 3)).length < 3 := by decide
/-- P2's good frame; EXE2's frame with the wrong command byte; P2's frame with the wrong checksum. -/
theorem witness_CheckStepAcceptsOrFailsTheAttempt :
    (busyT (seqT .check 3 2 3 3 [0x3A, 2] [0x10, 0x20, 0x6C]) []).seq.phase = .check ∧
    (FrameOk [0x3A, 2, 0x10, 0x20, 0x6C] ∧ ([0x3A, 2, 0x10, 0x20, 0x6C] : List Byte).getD 0 0 = 0x3A) ∧
    ¬ (FrameOk [0x3B, 0, 0x3B] ∧ ([0x3B, 0, 0x3B] : List Byte).getD 0 0 = 0x3A) ∧
    ¬ FrameOk [0x3A, 2, 0x10, 0x20, 0x00] := by unfold FrameOk; decide
theorem witness_TransportFailureIsNeverRetried :
    (busyT (seqT .rxBody 1 255 1 3 [0x3A, 2] []) []).seq.phase ∈ [Phase.flush, .send, .rxHdr, .rxBody] ∧
    ¬ ((busyT (seqT .rxBody 1 255 1 3 [0x3A, 2] []) []).link.ready = true ∧ failDraw.ok = true) := by decide

/-- The registers of P4 in CHECK: an overlong header of 0x14, and 17 bytes of body. -/
def overlong : Sequencer := seqT .check 1 0 1 17 [0x3A, 0x14] (List.replicate 17 0x11)
/-- The registers of P2 in CHECK, attempt 3. -/
def accepted : Sequencer := seqT .check 3 2 3 3 [0x3A, 2] [0x10, 0x20, 0x6C]

theorem inv_overlong : SeqInv overlong :=
  ⟨by decide, by simp [countsAgree, overlong, seqT], by simp [receiveAgrees, overlong, seqT, byteAt], by decide,
    fun _ => rfl, fun _ => ⟨[], by decide, rfl⟩⟩
theorem inv_accepted : SeqInv accepted :=
  ⟨by decide, by simp [countsAgree, accepted, seqT], by simp [receiveAgrees, accepted, seqT, byteAt], by decide,
    fun _ => rfl, fun _ => ⟨[], by decide, rfl⟩⟩
theorem inv_flush : SeqInv (seqT .flush 2 3 1 0 [] []) :=
  ⟨by decide, by simp [countsAgree, seqT], by simp [receiveAgrees, seqT], by decide,
    fun _ => rfl, fun _ => ⟨[], by decide, rfl⟩⟩
theorem inv_send : SeqInv (seqT .send 1 5 0 0 [] []) :=
  ⟨by decide, by simp [countsAgree, seqT], by simp [receiveAgrees, seqT], by decide,
    fun _ => rfl, fun _ => ⟨[], by decide, rfl⟩⟩

theorem witness_OverlongHeadersNeverSucceed :
    SeqInv overlong ∧ (busyT overlong []).seq.phase = .check ∧ 16 < lengthByte overlong.rxHdr :=
  ⟨inv_overlong, rfl, by decide⟩
theorem witness_AcceptedResponsesAreBuiltFrames : SeqInv accepted ∧ (busyT accepted []).seq.phase ≠ .idle ∧
    (seqStep (answerDraw []) (busyT accepted [])).results =
      (busyT accepted []).results ++ [⟨.execute, ⟨.ok, some (.bytes [0x10, 0x20])⟩⟩] :=
  ⟨inv_accepted, by decide, by decide⟩
/-- OK (P2), RETRIES_EXHAUSTED (P4), TRANSPORT_FAILURE in FLUSH (EXE6) and in SEND (EXE8), and ABORT in SEND
and in CHECK. -/
theorem witness_CountsAtCompletion :
    (SeqInv accepted ∧ (seqStep (answerDraw []) (busyT accepted [])).seq.phase = .idle) ∧
    (SeqInv overlong ∧ (seqStep (answerDraw []) (busyT overlong [])).seq.phase = .idle) ∧
    (SeqInv (seqT .flush 2 3 1 0 [] []) ∧ (seqStep failDraw (busyT (seqT .flush 2 3 1 0 [] []) [])).seq.phase = .idle) ∧
    (SeqInv (seqT .send 1 5 0 0 [] []) ∧ (seqStep failDraw (busyT (seqT .send 1 5 0 0 [] []) [])).seq.phase = .idle) ∧
    (seqT .send 1 5 0 0 [] []).phase ∈ [Phase.flush, .send] ∧ accepted.phase ∉ [Phase.flush, .send] :=
  ⟨⟨inv_accepted, by decide⟩, ⟨inv_overlong, by decide⟩, ⟨inv_flush, by decide⟩, ⟨inv_send, by decide⟩, by decide,
    by decide⟩
/-- A read asked for fewer bytes than have arrived; and answers that stop inside LINK.RX, end with it, and go
beyond it. -/
theorem witness_LinkPrimitivesKeepTheirContract :
    (∃ m, linkRead 2 (answerDraw [1, 2, 3]) ⟨[], true, []⟩ = (.ok [1, 2], m)) ∧
    (∃ m, linkFlush (answerDraw []) ⟨[9], true, []⟩ = (.ok [], m)) ∧
    (∃ m, linkWrite [0x3A] (answerDraw []) ⟨[], true, []⟩ = (.ok [], m)) ∧
    (⟨[9, 8], true, []⟩ : Link).ready = true ∧
    (([] : List Byte) <+: [9, 8] ∧ ([9, 8] : List Byte) <+: [9, 8] ∧ ([9, 8] : List Byte) <+: [9, 8, 7]) ∧
    ([9, 8, 7] : List Byte).length ≤ 3 :=
  ⟨⟨_, rfl⟩, ⟨_, rfl⟩, ⟨_, rfl⟩, rfl, by decide, by decide⟩
/-- Each phase with a write that succeeds or fails, a read that is short or whole, and a read that fails. -/
theorem witness_LinkAnswersDriveTheSteps :
    ((busyT (seqT .send 1 1 0 0 [] []) []).seq.phase = .send ∧
      (∃ l, linkWrite [0x3A, 0, 0x3A] (answerDraw []) ⟨[], true, []⟩ = (.ok [], l)) ∧
      ∃ l, linkWrite [0x3A, 0, 0x3A] failDraw ⟨[], true, []⟩ = (.xportErr, l)) ∧
    ((busyT (seqT .rxHdr 1 1 1 0 [] []) []).seq.phase = .rxHdr ∧
      (∃ l, linkRead 2 (answerDraw [0x3A, 0x14]) ⟨[], true, []⟩ = (.ok [0x3A, 0x14], l)) ∧
      (∃ l, linkRead 2 (answerDraw [0x3A]) ⟨[], true, []⟩ = (.ok [0x3A], l)) ∧
      ∃ l, linkRead 2 failDraw ⟨[], true, []⟩ = (.xportErr, l)) ∧
    ((busyT (seqT .rxBody 1 1 1 3 [0x3A, 2] []) []).seq.phase = .rxBody ∧
      (∃ l, linkRead 3 (answerDraw [0x10, 0x20, 0x6C]) ⟨[], true, []⟩ = (.ok [0x10, 0x20, 0x6C], l)) ∧
      (∃ l, linkRead 3 (answerDraw [0x10, 0x20]) ⟨[], true, []⟩ = (.ok [0x10, 0x20], l)) ∧
      ∃ l, linkRead 3 failDraw ⟨[], true, []⟩ = (.xportErr, l)) :=
  ⟨⟨rfl, ⟨_, rfl⟩, ⟨_, rfl⟩⟩, ⟨rfl, ⟨_, rfl⟩, ⟨_, rfl⟩, ⟨_, rfl⟩⟩, ⟨rfl, ⟨_, rfl⟩, ⟨_, rfl⟩, ⟨_, rfl⟩⟩⟩

theorem witness_DecodeInvertsEncode :
    (Instr.decodeMbU 0xFFFF 255 longest).wf = true ∧ (Instr.decodeMbA 0 1 []).wf = true := by
  simp [Instr.wf, lenLegal, bufferFits, longest_length, Config.bufMax]
theorem witness_EncodeInvertsDecode : decode [0x2F, 0x00] = .instr .abort := by decide
theorem witness_SevenBytesTellTheLength :
    decode [0x10, 0x40, 0x01, 0x02, 0x00, 0x00, 0x01, 0x83] = .instr (.decodeByteU 0x0102 [0x83]) := by decide
theorem witness_PseudoInstructionsExpand :
    schemaWf (idleT .absent []).params.schema = true ∧ buf22.length ≤ 65535 ∧
    (idleT .absent []).params.schema[7]? = some ⟨"far_field".toList, 0x40, .byte, .unsigned, none, false⟩ ∧
    ∀ e ∈ (idleT .absent []).params.schema, e.name ≠ "speed".toList := by decide

theorem witness_StepRunsTheDecodedRequest :
    (idleT .absent [.request [0x30, 0]]).inputs = [.request [0x30, 0]] ∧ decode [0x30, 0] = .instr .status := by decide
/-- ENC4 and ENC18, the latter while an EXECUTE is in progress. -/
theorem witness_RequestsAreSorted :
    (idleT .absent [.request [0xFF, 0]]).inputs = [.request [0xFF, 0]] ∧ decode [0xFF, 0] = .illegal ∧
    (busyT accepted [.request [0x20, 0, 0x3A, 0, 1]]).inputs = [.request [0x20, 0, 0x3A, 0, 1]] ∧
    decode [0x20, 0, 0x3A, 0, 1] = .malformed := by decide
theorem witness_StepsOfTheOtherAgents :
    (busyT accepted [.block failDraw]).inputs = [.block failDraw] ∧
    (idleT .absent [.arrive [1]]).inputs = [.arrive [1]] ∧
    (idleT .absent [.linkReady false]).inputs = [.linkReady false] ∧
    ((idleT .absent []).inputs = [] ∧ (idleT .absent []).seq.phase = .idle) ∧
    ((busyT accepted []).inputs = [] ∧ (busyT accepted []).seq.phase ≠ .idle) := by decide

theorem witness_ParametersNeverChange : ∃ t, step (idleT .absent [.arrive [1]]) = .next t := ⟨_, rfl⟩
/-- A sequencer step, an EXECUTE, an ABORT and a reset, each of which changes a register. -/
theorem witness_OnlyTheSequencerWritesItsRegisters :
    (∀ s ∈ [busyT accepted [.block failDraw], idleT .absent [.request [0x20, 0, 0x3A, 0, 0]],
        busyT accepted [.request [0x2F, 0]], busyT accepted [.reset]],
      ∃ t, step s = .next t ∧ t.seq ≠ s.seq) := by
  intro s hs
  simp only [List.mem_cons, List.not_mem_nil, or_false] at hs
  rcases hs with rfl | rfl | rfl | rfl <;> exact ⟨_, rfl, by decide⟩
/-- EXECUTE 0x3A, 2 accepted right after reset. -/
theorem witness_LatchedRegistersChangeAtAcceptance :
    ∃ t, step (idleT .absent [.request [0x20, 0, 0x3A, 2, 0]]) = .next t ∧
      t.seq.reqCmd ≠ (idleT .absent []).seq.reqCmd := ⟨_, rfl, by decide⟩
theorem witness_LastStatusIsKeptWhileBusy :
    ∃ t, step (idleT .absent [.request [0x20, 0, 0x3A, 0, 0]]) = .next t ∧ busy t = true := ⟨_, rfl, by decide⟩
theorem witness_AtMostOneLinkPrimitivePerStep :
    ∃ t, step (busyT (seqT .flush 1 2 0 0 [] []) [.block failDraw]) = .next t := ⟨_, rfl⟩
/-- An ABORT and an accepting CHECK, each of which takes a busy sequencer to idle. -/
theorem witness_ResultsAreDeliveredInOrder :
    (∃ t, step (busyT accepted [.request [0x2F, 0]]) = .next t ∧ busy t = false) ∧
    (∃ t, step (busyT accepted [.block (answerDraw [])]) = .next t ∧ busy t = false) ∧
    busy (busyT accepted []) = true ∧
    ∀ rest, (busyT accepted [.request [0x2F, 0]]).inputs ≠ .reset :: rest :=
  ⟨⟨_, rfl, by decide⟩, ⟨_, rfl, by decide⟩, by decide, (by intro rest h; cases h)⟩
theorem witness_ResetRegisters : (busyT accepted [.reset]).inputs = [.reset] := rfl
theorem witness_ResetAbandonsTheExecute : (busyT accepted [.reset]).inputs = [.reset] := rfl

/-- A busy block meets the invariant. -/
theorem witness_BlockInv : BlockInv (busyT accepted [.block failDraw]) :=
  ⟨by decide, inv_accepted, (by intro d hd; cases hd), (by intro e he; cases he)⟩
theorem witness_EveryStepKeepsTheInvariant :
    BlockInv (busyT accepted [.block failDraw]) ∧ ∃ t, step (busyT accepted [.block failDraw]) = .next t :=
  ⟨witness_BlockInv, _, rfl⟩
theorem witness_EveryExecuteEnds : BlockInv (busyT accepted [.block failDraw]) ∧
    busy (busyT accepted [.block failDraw]) = true ∧
    ∀ e ∈ (busyT accepted [.block failDraw]).inputs, ∃ d, e = Event.block d :=
  ⟨witness_BlockInv, by decide, by intro e he; exact ⟨failDraw, List.mem_singleton.mp he⟩⟩
theorem witness_InstancesDoNotInterfere :
    (∃ z, (System.mk [idleT .absent [.arrive [1]], idleT .absent []]).stepAt 0 = some z) ∧
    (System.mk [idleT .absent [.arrive [1]], idleT .absent []]).sharesSchema := by
  refine ⟨⟨_, rfl⟩, ?_⟩
  unfold System.sharesSchema; decide

end Sys2Proof.Tests
end

/-! SUPPORT and proofs for the sorting of requests (30_encoding.md R90). -/

namespace Sys2Proof.Cert

open Sys2Proof.Machine

/-! ### The bytes of a request as numbers -/

@[simp] theorem at_cons_zero (b : Byte) (r : List Byte) : at_ (b :: r) 0 = b.toNat := rfl
@[simp] theorem at_cons_succ (b : Byte) (r : List Byte) (k : Nat) : at_ (b :: r) (k + 1) = at_ r k := rfl

theorem krKind_toNat (kr : Byte) : (krKind kr).toNat = kr.toNat / 64 := by
  simp [krKind, BitVec.extractLsb'_toNat, Nat.shiftRight_eq_div_pow]; omega

theorem krBit_toNat (kr : Byte) : (krBit kr).toNat = kr.toNat % 8 := by
  simp [krBit, BitVec.extractLsb'_toNat]

theorem krReserved_eq_true_iff (kr : Byte) : krReserved kr = true ↔ kr.toNat / 8 % 2 = 1 := by
  simp [krReserved, BitVec.getLsbD, Nat.testBit_eq_decide_div_mod_eq]

theorem lenLegal_eq_true_iff (len : Byte) : lenLegal len = true ↔ len.toNat ≠ 0 := by
  simp [lenLegal, ← BitVec.toNat_inj]

/-! ### Sorting a request by the reasons of R90 -/

/-- The decoder's answer `d` to a request `r` with an assigned OPSEL is what items 2 and 3 of R90 say:
never illegal, and malformed exactly for the listed reasons. -/
def SortedAs (r : List Byte) (d : Decoded) : Prop :=
  d ≠ .illegal ∧ (d = .malformed ↔ MalformedReason r)

theorem sortedAs_malformed {r : List Byte} (h : MalformedReason r) : SortedAs r .malformed :=
  ⟨nofun, iff_of_true rfl h⟩

theorem sortedAs_legalIf {r : List Byte} {c : Bool} (i : Instr) (h : c = true ↔ ¬ MalformedReason r) :
    SortedAs r (legalIf c i) := by
  refine ⟨legalIf_ne_illegal, ?_⟩
  cases c <;> simp_all [legalIf]

/-- The length of the fixed fields of R82, up to and with the count field. -/
def fixedLength (op : Nat) : Nat :=
  if op = 0x01 then 4 else if op = 0x02 then 5 else if op = 0x03 then 4 else if op = 0x10 then 7
  else if op = 0x11 then 6 else if op = 0x12 then 4 else if op = 0x20 then 5 else 2

theorem fixedLength_le_totalLength (r : List Byte) : fixedLength (at_ r 0) ≤ totalLength r := by
  unfold fixedLength totalLength
  split_ifs <;> omega

/-- A request that ends within its fixed fields has not the length of R82. -/
theorem sortedAs_short {r : List Byte} (h : r.length < fixedLength (at_ r 0)) : SortedAs r .malformed :=
  sortedAs_malformed (.inl (Nat.ne_of_lt (h.trans_le (fixedLength_le_totalLength r))))

/-! ### The reasons that can hold for each OPSEL -/

/-- The operations whose `MOD` must be 0x00. -/
theorem malformedReason_iff_of_mod_zero {r : List Byte} (h : at_ r 0 ∈ [0x01, 0x03, 0x11, 0x20, 0x2F, 0x30]) :
    MalformedReason r ↔ r.length ≠ totalLength r ∨ at_ r 1 ≠ 0 := by
  simp only [List.mem_cons, List.not_mem_nil, or_false] at h
  rcases h with h | h | h | h | h | h <;> simp [MalformedReason, h]

/-- VALIDATE (R83). -/
theorem malformedReason_iff_of_validate {r : List Byte} (h : at_ r 0 = 0x02) :
    MalformedReason r ↔ r.length ≠ totalLength r ∨ at_ r 1 / 2 ≠ 0 ∨ at_ r 1 % 2 = 0 ∧ at_ r 2 ≠ 0 := by
  simp [MalformedReason, h]

/-- The DECODE family (R84), by the fields of `KR`. -/
theorem malformedReason_iff_of_family {r : List Byte} (h : at_ r 0 = 0x10) :
    MalformedReason r ↔ r.length ≠ totalLength r ∨ at_ r 1 / 8 % 2 = 1 ∨ at_ r 1 / 64 = 3 ∨
      at_ r 1 / 64 ∈ [1, 2] ∧ at_ r 1 % 8 ≠ 0 ∨ at_ r 1 / 64 ∈ [0, 1] ∧ at_ r 4 ≠ 0 ∨
      at_ r 1 / 64 = 2 ∧ at_ r 4 = 0 := by
  simp [MalformedReason, h]

/-- DECODE.ALL (R85). -/
theorem malformedReason_iff_of_all {r : List Byte} (h : at_ r 0 = 0x12) :
    MalformedReason r ↔ r.length ≠ totalLength r ∨ at_ r 1 / 2 ≠ 0 ∨
      at_ r 1 % 2 = 0 ∧ 256 * at_ r 2 + at_ r 3 ≠ 0 := by
  simp [MalformedReason, h]

/-! ### The layouts of R82, one by one -/

theorem sortedAs_decodeBuild (mod : Byte) (ops : List Byte) :
    SortedAs (0x01 :: mod :: ops) (decodeBuild mod ops) := by
  match ops with
  | [] | [_] => exact sortedAs_short (by simp [fixedLength])
  | cmd :: n :: p =>
    refine sortedAs_legalIf _ ?_
    simp [malformedReason_iff_of_mod_zero, totalLength, ← BitVec.toNat_inj]
    omega

theorem sortedAs_decodeValidate (flg : Byte) (ops : List Byte) :
    SortedAs (0x02 :: flg :: ops) (decodeValidate flg ops) := by
  match ops with
  | [] | [_] | [_, _] => exact sortedAs_short (by simp [fixedLength])
  | exp :: m1 :: m0 :: bs =>
    by_cases hE : flg = 0
    · subst hE
      refine sortedAs_legalIf _ ?_
      simp [malformedReason_iff_of_validate, totalLength, be16_toNat, ← BitVec.toNat_inj]
      omega
    · rw [decodeValidate, if_neg hE]
      refine sortedAs_legalIf _ ?_
      simp [malformedReason_iff_of_validate, totalLength, be16_toNat, ← BitVec.toNat_inj] at hE ⊢
      omega

theorem sortedAs_decodeParse (mod : Byte) (ops : List Byte) :
    SortedAs (0x03 :: mod :: ops) (decodeParse mod ops) := by
  match ops with
  | [] | [_] => exact sortedAs_short (by simp [fixedLength])
  | m1 :: m0 :: bs =>
    refine sortedAs_legalIf _ ?_
    simp [malformedReason_iff_of_mod_zero, totalLength, be16_toNat, ← BitVec.toNat_inj]
    omega

/-- Where the length is right and the reserved bit of `KR` is 0, the other reasons are those of the entry
descriptor (R84). -/
theorem sortedAs_decodeVariant (kr o1 o0 len m1 m0 : Byte) (buf : List Byte) (hr : krReserved kr = false)
    (hl : buf.length = (be16 m1 m0).toNat) :
    SortedAs (0x10 :: kr :: o1 :: o0 :: len :: m1 :: m0 :: buf) (decodeVariant kr (be16 o1 o0) len buf) := by
  have hres : ¬ kr.toNat / 8 % 2 = 1 := by simp [← krReserved_eq_true_iff, hr]
  rw [be16_toNat] at hl
  unfold decodeVariant
  by_cases h0 : krKind kr = 0
  · rw [if_pos h0]
    refine sortedAs_legalIf _ ?_
    simp [malformedReason_iff_of_family, totalLength, ← BitVec.toNat_inj, krKind_toNat] at h0 ⊢
    omega
  by_cases h1 : krKind kr = 1
  · rw [if_neg h0, if_pos h1]
    refine sortedAs_legalIf _ ?_
    simp [malformedReason_iff_of_family, totalLength, ← BitVec.toNat_inj, krKind_toNat, krBit_toNat] at h1 ⊢
    omega
  by_cases h2 : krKind kr = 2
  · rw [if_neg h0, if_neg h1, if_pos h2]
    refine sortedAs_legalIf _ ?_
    simp [malformedReason_iff_of_family, totalLength, ← BitVec.toNat_inj, krKind_toNat, krBit_toNat,
      lenLegal_eq_true_iff] at h2 ⊢
    omega
  · rw [if_neg h0, if_neg h1, if_neg h2]
    refine sortedAs_malformed ?_
    simp [malformedReason_iff_of_family, totalLength, ← BitVec.toNat_inj, krKind_toNat] at h0 h1 h2 ⊢
    omega

theorem sortedAs_decodeFamily (kr : Byte) (ops : List Byte) :
    SortedAs (0x10 :: kr :: ops) (decodeFamily kr ops) := by
  match ops with
  | [] | [_] | [_, _] | [_, _, _] | [_, _, _, _] => exact sortedAs_short (by simp [fixedLength])
  | o1 :: o0 :: len :: m1 :: m0 :: buf =>
    by_cases h : krReserved kr = false ∧ buf.length = (be16 m1 m0).toNat
    · simpa [decodeFamily, h] using sortedAs_decodeVariant kr o1 o0 len m1 m0 buf h.1 h.2
    · rw [decodeFamily, if_neg (by simpa using h)]
      refine sortedAs_malformed ?_
      rw [← Bool.not_eq_true, krReserved_eq_true_iff, be16_toNat] at h
      simp [malformedReason_iff_of_family, totalLength]
      omega

theorem sortedAs_decodeNamedReq (mod : Byte) (ops : List Byte) :
    SortedAs (0x11 :: mod :: ops) (decodeNamedReq mod ops) := by
  match ops with
  | [] | [_] | [_, _] | [_, _, _] => exact sortedAs_short (by simp [fixedLength])
  | i1 :: i0 :: m1 :: m0 :: buf =>
    refine sortedAs_legalIf _ ?_
    simp [malformedReason_iff_of_mod_zero, totalLength, be16_toNat, ← BitVec.toNat_inj]
    omega

theorem sortedAs_decodeAllReq (flg : Byte) (ops : List Byte) :
    SortedAs (0x12 :: flg :: ops) (decodeAllReq flg ops) := by
  match ops with
  | [] | [_] => exact sortedAs_short (by simp [fixedLength])
  | m1 :: m0 :: buf =>
    by_cases hP : flg = 0
    · subst hP
      refine sortedAs_legalIf _ ?_
      simp [malformedReason_iff_of_all, totalLength, be16_toNat, ← BitVec.toNat_inj, ← List.length_eq_zero_iff]
      omega
    · rw [decodeAllReq, if_neg hP]
      refine sortedAs_legalIf _ ?_
      simp [malformedReason_iff_of_all, totalLength, be16_toNat, ← BitVec.toNat_inj] at hP ⊢
      omega

theorem sortedAs_decodeExecute (mod : Byte) (ops : List Byte) :
    SortedAs (0x20 :: mod :: ops) (decodeExecute mod ops) := by
  match ops with
  | [] | [_] | [_, _] => exact sortedAs_short (by simp [fixedLength])
  | cmd :: ret :: n :: p =>
    refine sortedAs_legalIf _ ?_
    simp [malformedReason_iff_of_mod_zero, totalLength, ← BitVec.toNat_inj]
    omega

theorem sortedAs_decodeBare (i : Instr) {op : Byte} (hop : op = 0x2F ∨ op = 0x30) (mod : Byte)
    (ops : List Byte) : SortedAs (op :: mod :: ops) (decodeBare i mod ops) := by
  refine sortedAs_legalIf _ ?_
  rcases hop with rfl | rfl <;>
  · simp [malformedReason_iff_of_mod_zero, totalLength, ← BitVec.toNat_inj, ← List.length_eq_zero_iff]
    omega

/-! ### The whole decoder -/

theorem assigned_toNat_iff (op : Byte) :
    assigned op.toNat ↔ op ∈ ([0x01, 0x02, 0x03, 0x10, 0x11, 0x12, 0x20, 0x2F, 0x30] : List Byte) := by
  simp [assigned, ← BitVec.toNat_inj]

theorem sortedAs_decode {op : Byte} (h : assigned op.toNat) (mod : Byte) (ops : List Byte) :
    SortedAs (op :: mod :: ops) (decode (op :: mod :: ops)) := by
  rw [assigned_toNat_iff] at h
  simp only [List.mem_cons, List.not_mem_nil, or_false] at h
  rcases h with rfl | rfl | rfl | rfl | rfl | rfl | rfl | rfl | rfl
  · exact sortedAs_decodeBuild mod ops
  · exact sortedAs_decodeValidate mod ops
  · exact sortedAs_decodeParse mod ops
  · exact sortedAs_decodeFamily mod ops
  · exact sortedAs_decodeNamedReq mod ops
  · exact sortedAs_decodeAllReq mod ops
  · exact sortedAs_decodeExecute mod ops
  · exact sortedAs_decodeBare _ (.inl rfl) mod ops
  · exact sortedAs_decodeBare _ (.inr rfl) mod ops

theorem decode_of_not_assigned {op : Byte} (h : ¬ assigned op.toNat) (mod : Byte) (ops : List Byte) :
    decode (op :: mod :: ops) = .illegal := by
  rw [assigned_toNat_iff] at h
  simp only [List.mem_cons, List.not_mem_nil, or_false, not_or] at h
  obtain ⟨h1, h2, h3, h4, h5, h6, h7, h8, h9⟩ := h
  rw [decode, if_neg h1, if_neg h2, if_neg h3, if_neg h4, if_neg h5, if_neg h6, if_neg h7, if_neg h8,
    if_neg h9]

/-- Item 1 of R90. -/
theorem decode_eq_illegal_of_no_operation {r : List Byte} (h : ¬ (2 ≤ r.length ∧ assigned (at_ r 0))) :
    decode r = .illegal := by
  match r with
  | [] | [_] => rfl
  | op :: mod :: ops => exact decode_of_not_assigned (by simpa using h) mod ops

/-- Items 2 and 3 of R90. -/
theorem sortedAs_of_operation {r : List Byte} (h : 2 ≤ r.length ∧ assigned (at_ r 0)) :
    SortedAs r (decode r) := by
  match r with
  | op :: mod :: ops => exact sortedAs_decode h.2 mod ops

theorem decode_eq_illegal_iff (r : List Byte) : decode r = .illegal ↔ r.length < 2 ∨ ¬ assigned (at_ r 0) := by
  rw [← not_le, ← not_and_or]
  exact ⟨fun hd h => (sortedAs_of_operation h).1 hd, decode_eq_illegal_of_no_operation⟩

theorem decode_eq_malformed_iff (r : List Byte) :
    decode r = .malformed ↔ 2 ≤ r.length ∧ assigned (at_ r 0) ∧ MalformedReason r := by
  rw [← and_assoc]
  by_cases h : 2 ≤ r.length ∧ assigned (at_ r 0)
  · rw [and_iff_right h, (sortedAs_of_operation h).2]
  · exact iff_of_false (by simp [decode_eq_illegal_of_no_operation h]) (fun hm => h hm.1)

/-- An answer that is neither illegal nor malformed is an instruction. -/
theorem exists_instr_iff (d : Decoded) : (∃ i, d = .instr i) ↔ d ≠ .illegal ∧ d ≠ .malformed := by
  cases d <;> simp

theorem exists_decode_eq_instr_iff (r : List Byte) :
    (∃ i, decode r = .instr i) ↔ 2 ≤ r.length ∧ assigned (at_ r 0) ∧ ¬ MalformedReason r := by
  rw [exists_instr_iff, Ne, Ne, decode_eq_illegal_iff, decode_eq_malformed_iff, ← not_le]
  tauto

/-! ### A step on a request -/

theorem step_of_request {s : State} {r : List Byte} {rest : List Event} (h : s.inputs = .request r :: rest) :
    step s = acceptRequest r { s with inputs := rest } := by
  rw [step, takeInput, h]

theorem acceptRequest_of_illegal {r : List Byte} (h : decode r = .illegal) (s : State) :
    acceptRequest r s = .next (answers s .illegalOperation none) := by
  rw [acceptRequest, h]; rfl

theorem acceptRequest_of_malformed {r : List Byte} (h : decode r = .malformed) (s : State) :
    acceptRequest r s = .next (answers s .malformedRequest none) := by
  rw [acceptRequest, h]; rfl

/-- Settles O41: a request with an operation is sorted by the reasons of its layout, any other is illegal. -/
theorem requestsAreSorted : Obligations.RequestsAreSorted := by
  unfold Obligations.RequestsAreSorted
  intro r
  refine ⟨decode_eq_illegal_iff r, decode_eq_malformed_iff r, exists_decode_eq_instr_iff r, fun s rest hs => ?_⟩
  rw [step_of_request hs]
  exact ⟨fun h => acceptRequest_of_illegal h _, fun h => acceptRequest_of_malformed h _⟩

end Sys2Proof.Cert

/-! SUPPORT and proofs for the pseudo-instructions (30_encoding.md R93). -/

namespace Sys2Proof.Cert

open Sys2Proof.Machine

/-! ### The index of a name -/

theorem schemaWf_iff (l : List SchemaEntry) :
    schemaWf l = true ↔
      (∀ e ∈ l, e.wf = true) ∧ (l.map SchemaEntry.name).Nodup ∧ l.length ≤ 65535 := by
  simp [schemaWf, Config.schemaMax, and_assoc]

/-- Names are unique (R162), so the first entry of a name is the only one. -/
theorem schemaIndex_of_getElem? {l : List SchemaEntry} (hn : (l.map SchemaEntry.name).Nodup) {k : Nat}
    {e : SchemaEntry} (h : l[k]? = some e) : schemaIndex l e.name = BitVec.ofNat 16 k := by
  obtain ⟨hk, rfl⟩ := List.getElem?_eq_some_iff.mp h
  have hfind : l.findIdx? (fun x => x.name = l[k].name) = some k := by
    refine List.findIdx?_eq_some_iff_getElem.mpr ⟨hk, by simp, fun j hj hname => ?_⟩
    have hmap : (l.map SchemaEntry.name)[j]'(by simp; omega) = (l.map SchemaEntry.name)[k]'(by simpa) := by
      simpa using hname
    exact hj.ne (hn.getElem_inj_iff.mp hmap)
  rw [schemaIndex, hfind]

theorem schemaIndex_of_forall_ne {l : List SchemaEntry} {name : Text} (h : ∀ e ∈ l, e.name ≠ name) :
    schemaIndex l name = 0xFFFF := by
  have hfind : l.findIdx? (fun x => x.name = name) = none := List.findIdx?_eq_none_iff.mpr (by simpa using h)
  rw [schemaIndex, hfind]

/-! ### The index that is never assigned -/

/-- An index beyond the schema is ABSENT (R178). -/
theorem exec_decodeNamed_of_length_le {s : State} {idx : Half} (h : s.params.schema.length ≤ idx.toNat)
    {buf : List Byte} (hb : buf.length ≤ 65535) :
    exec (.decodeNamed idx buf) s = .next (answers s .absent none) := by
  have hnone : decodeNamed s.params idx buf = none := by rw [decodeNamed, List.getElem?_eq_none h]
  rw [exec_pure rfl (by simpa [Instr.wf, bufferFits] using hb), pureResult, hnone]
  rfl

/-- Settles O44: under unique names the search finds the entry of the name, and a schema of at most 65535
entries has none at 0xFFFF. -/
theorem pseudoInstructionsExpand : Obligations.PseudoInstructionsExpand := by
  unfold Obligations.PseudoInstructionsExpand
  intro s name buf hwf hb
  obtain ⟨-, hnodup, hlen⟩ := (schemaWf_iff _).mp hwf
  refine ⟨?_, ?_, exec_decodeNamed_of_length_le hlen hb, fun _ _ => rfl, fun _ _ => rfl⟩
  · rintro k e hk rfl
    rw [Pseudo.expand, schemaIndex_of_getElem? hnodup hk]
  · intro h
    rw [Pseudo.expand, schemaIndex_of_forall_ne h]

end Sys2Proof.Cert

/-! SUPPORT and proofs for the frame codec (40_frame_codec.md). -/

namespace Sys2Proof.Cert

open Sys2Proof.Machine

/-! ### Count fields -/

/-- An 8-bit count field is read back as the number (R87). -/
theorem one_toNat_of_le {n : Nat} (h : n ≤ 255) : (one n).toNat = n := by
  rw [one, BitVec.toNat_ofNat]
  omega

/-- A 16-bit count field is read back as the number (R87). -/
theorem be16_two_toNat {n : Nat} (h : n ≤ 65535) : (be16 (one (n / 256)) (one n)).toNat = n := by
  rw [be16_toNat, one_toNat_of_le (by omega), one, BitVec.toNat_ofNat]
  omega

theorem legalIf_of_eq_true {c : Bool} (h : c = true) (i : Instr) : legalIf c i = .instr i :=
  legalIf_eq_instr.mpr ⟨h, rfl⟩

/-! ### The requests of the frame codec -/

theorem decode_build_request (cmd : Byte) {p : List Byte} (h : p.length ≤ 255) :
    decode ([0x01, 0x00, cmd, one p.length] ++ p) = .instr (.build cmd p) :=
  legalIf_of_eq_true (by simp [one_toNat_of_le h]) _

theorem decode_validate_request {bs : List Byte} (h : bs.length ≤ 65535) :
    decode ([0x02, 0x00, 0x00] ++ two bs.length ++ bs) = .instr (.validate none bs) :=
  legalIf_of_eq_true (by simp [be16_two_toNat h]) _

theorem decode_validate_expected_request (e : Byte) {bs : List Byte} (h : bs.length ≤ 65535) :
    decode ([0x02, 0x01, e] ++ two bs.length ++ bs) = .instr (.validate (some e) bs) :=
  legalIf_of_eq_true (by simp [be16_two_toNat h]) _

theorem decode_parse_request {bs : List Byte} (h : bs.length ≤ 65535) :
    decode ([0x03, 0x00] ++ two bs.length ++ bs) = .instr (.parse bs) :=
  legalIf_of_eq_true (by simp [be16_two_toNat h]) _

/-! ### The model's frames in the words of the statements -/

/-- The sum that the checksum adds up has the length only modulo 256; the outer reduction absorbs it. -/
theorem checksum_eq_one (cmd : Byte) (p : List Byte) :
    checksum cmd p = one (cmd.toNat + p.length + (p.map BitVec.toNat).sum) := by
  apply BitVec.eq_of_toNat_eq
  rw [checksum, sum8_toNat, one, BitVec.toNat_ofNat, List.map_cons, List.map_cons, List.sum_cons,
    List.sum_cons, BitVec.toNat_ofNat]
  omega

theorem build_eq (cmd : Byte) (p : List Byte) :
    build cmd p =
      [cmd, one p.length] ++ p ++ [one (cmd.toNat + p.length + (p.map BitVec.toNat).sum)] := by
  rw [build, checksum_eq_one]
  rfl

theorem framePayload_eq_payloadOf (bs : List Byte) : framePayload bs = payloadOf bs := by
  simp [framePayload, payloadOf, slice, declaredLen, lengthByte, byteAt]

/-- The checksum test as bytes is the one as numbers (R104 (c)). -/
theorem sum8_slice_eq_iff (bs : List Byte) (n : Nat) :
    sum8 (slice bs 0 n) = byteAt bs n ↔ byteSum (bs.take n) = (bs.getD n 0).toNat := by
  rw [← BitVec.toNat_inj, sum8_toNat]
  rfl

/-- `validate` is the checks (a) to (c) and the expected command (R104). -/
theorem validate_iff_frameOk (bs : List Byte) (exp : Option Byte) :
    validate bs exp = true ↔ FrameOk bs ∧ ∀ e, exp = some e → bs.getD 0 0 = e := by
  rw [validate_iff, sum8_slice_eq_iff, FrameOk, and_assoc, and_assoc]
  rfl

theorem validate_none_iff_frameOk (bs : List Byte) : validate bs none = true ↔ FrameOk bs := by
  simp [validate_iff_frameOk]

theorem parse_of_frameOk {bs : List Byte} (h : FrameOk bs) :
    parse bs = some (bs.getD 0 0, payloadOf bs) := by
  rw [parse, if_pos ((validate_none_iff_frameOk bs).mpr h), framePayload_eq_payloadOf]
  rfl

theorem parse_of_not_frameOk {bs : List Byte} (h : ¬ FrameOk bs) : parse bs = none := by
  rw [parse, if_neg (mt (validate_none_iff_frameOk bs).mp h)]

/-! ### The results of the frame codec -/

/-- A well-formed pure operation answers its result (R60). -/
theorem exec_pure_answers {i : Instr} (hp : isPure i = true) (hw : i.wf = true) (s : State) :
    exec i s = .next (answers s (pureResult s.params i).status (pureResult s.params i).value) :=
  exec_pure hp hw s

theorem payloadFits_of_le {p : List Byte} (h : p.length ≤ 255) : payloadFits p = true := decide_eq_true h

theorem bufferFits_of_le {b : List Byte} (h : b.length ≤ 65535) : bufferFits b = true := decide_eq_true h

theorem exec_build (cmd : Byte) {p : List Byte} (h : p.length ≤ 255) (s : State) :
    exec (.build cmd p) s = .next (answers s .ok (some (.bytes (build cmd p)))) :=
  exec_pure_answers (i := .build cmd p) rfl (payloadFits_of_le h) s

theorem exec_validate (exp : Option Byte) {bs : List Byte} (h : bs.length ≤ 65535) (s : State) :
    exec (.validate exp bs) s = .next (answers s .ok (some (.bool (validate bs exp)))) :=
  exec_pure_answers (i := .validate exp bs) rfl (bufferFits_of_le h) s

theorem exec_parse_of_frameOk {bs : List Byte} (h : bs.length ≤ 65535) (hf : FrameOk bs) (s : State) :
    exec (.parse bs) s = .next (answers s .ok (some (.frame (bs.getD 0 0) (payloadOf bs)))) := by
  rw [exec_pure_answers (i := .parse bs) rfl (bufferFits_of_le h), pureResult, parse_of_frameOk hf]

theorem exec_parse_of_not_frameOk {bs : List Byte} (h : bs.length ≤ 65535) (hf : ¬ FrameOk bs) (s : State) :
    exec (.parse bs) s = .next (answers s .invalid none) := by
  rw [exec_pure_answers (i := .parse bs) rfl (bufferFits_of_le h), pureResult, parse_of_not_frameOk hf]

/-- Settles O1: the length field of a payload of at most 255 bytes is its length, and the checksum is the
sum of the bytes before it. -/
theorem buildReturnsTheFrame : Obligations.BuildReturnsTheFrame := by
  unfold Obligations.BuildReturnsTheFrame
  intro s cmd p h
  refine ⟨decode_build_request cmd h, ?_⟩
  rw [exec_build cmd h, build_eq]

/-- Settles O2: the Boolean is `validate`, which accepts exactly on the four checks. -/
theorem validateAnswersTheFourChecks : Obligations.ValidateAnswersTheFourChecks := by
  unfold Obligations.ValidateAnswersTheFourChecks
  intro s bs h
  exact ⟨decode_validate_request h, fun e => decode_validate_expected_request e h,
    fun exp => ⟨validate bs exp, exec_validate exp h s, validate_iff_frameOk bs exp⟩⟩

/-- Settles O3: `parse` takes its branch by the checks (a) to (c). -/
theorem parseReturnsCommandAndPayload : Obligations.ParseReturnsCommandAndPayload := by
  unfold Obligations.ParseReturnsCommandAndPayload
  intro s bs h
  exact ⟨decode_parse_request h, fun hf => exec_parse_of_frameOk h hf s,
    fun hf => exec_parse_of_not_frameOk h hf s⟩

end Sys2Proof.Cert

/-! SUPPORT and proofs for the request sequencer (41_request_sequencer.md). -/

namespace Sys2Proof.Cert

open Sys2Proof.Machine

/-! ### The model's endings in the words of the statements -/

/-- A result other than OK has no value (R148). -/
theorem complete_eq_finishes_of_ne_ok (st : Status) (h : st ≠ .ok) (s : State) :
    complete st s = finishes s s.seq s.link st none := by
  rw [complete, if_neg h]
  rfl

theorem complete_ok_eq_finishes (s : State) :
    complete .ok s = finishes s s.seq s.link .ok (some (.bytes s.seq.respPayload)) := rfl

theorem transportFailure_eq_finishes (l : Link) (s : State) :
    transportFailure l s = finishes s s.seq l .transportFailure none := rfl

/-! ### When a link primitive fails -/

theorem linkFails_eq_false_iff (d : LinkDraw) (l : Link) :
    linkFails d l = false ↔ l.ready = true ∧ d.ok = true := by
  simp [linkFails]

theorem linkFails_eq_true_iff (d : LinkDraw) (l : Link) :
    linkFails d l = true ↔ ¬ (l.ready = true ∧ d.ok = true) := by
  rw [← linkFails_eq_false_iff, Bool.not_eq_false]

section
variable {d : LinkDraw} {s : State}

/-! ### The step of each phase (R22) -/

theorem seqStep_of_flush (h : s.seq.phase = .flush) : seqStep d s = flushStep d s := by
  rw [seqStep, h]

theorem seqStep_of_send (h : s.seq.phase = .send) : seqStep d s = sendStep d s := by
  rw [seqStep, h]

theorem seqStep_of_rxHdr (h : s.seq.phase = .rxHdr) : seqStep d s = rxHdrStep d s := by
  rw [seqStep, h]

theorem seqStep_of_rxBody (h : s.seq.phase = .rxBody) : seqStep d s = rxBodyStep d s := by
  rw [seqStep, h]

theorem seqStep_of_check (h : s.seq.phase = .check) : seqStep d s = checkStep s := by
  rw [seqStep, h]

/-! ### The steps where the link primitive fails (R136) -/

theorem flushStep_of_linkFails (h : linkFails d s.link = true) :
    flushStep d s = transportFailure
      { s.link with rx := d.rxAfter, log := s.link.log ++ [.flush false] } s := by
  simpa [h] using flushStep_cases d s

theorem flushStep_of_not_linkFails (h : linkFails d s.link = false) :
    flushStep d s = { s with
      link := { s.link with rx := [], log := s.link.log ++ [.flush true] }
      seq := { s.seq with phase := .send } } := by
  simpa [h] using flushStep_cases d s

theorem sendStep_of_linkFails (h : linkFails d s.link = true) :
    sendStep d s = transportFailure
      { s.link with
        rx := s.link.rx ++ d.arrived
        log := s.link.log ++ [.write s.seq.txFrame (min d.count s.seq.txFrame.length) false] }
      { s with seq := { s.seq with writeCount := s.seq.writeCount + 1 } } := by
  simpa [h] using sendStep_cases d s

theorem rxHdrStep_of_linkFails (h : linkFails d s.link = true) :
    rxHdrStep d s = transportFailure
      { s.link with rx := d.rxAfter, log := s.link.log ++ [.read 2 none] } s := by
  simpa [h] using rxHdrStep_cases d s

theorem rxBodyStep_of_linkFails (h : linkFails d s.link = true) :
    rxBodyStep d s = transportFailure
      { s.link with rx := d.rxAfter, log := s.link.log ++ [.read s.seq.bodyLen.toNat none] } s := by
  simpa [h] using rxBodyStep_cases d s

/-- In every phase with a link primitive, the step where it fails is a transport failure of a state with
the same attempt count and the same results so far. -/
theorem seqStep_of_linkFails (hp : s.seq.phase ∈ [Phase.flush, .send, .rxHdr, .rxBody])
    (hf : linkFails d s.link = true) :
    ∃ l t, seqStep d s = transportFailure l t ∧ t.seq.attempt = s.seq.attempt ∧
      t.results = s.results := by
  simp only [List.mem_cons, List.not_mem_nil, or_false] at hp
  rcases hp with hp | hp | hp | hp
  · rw [seqStep_of_flush hp]
    exact ⟨_, s, flushStep_of_linkFails hf, rfl, rfl⟩
  · rw [seqStep_of_send hp]
    exact ⟨_, _, sendStep_of_linkFails hf, rfl, rfl⟩
  · rw [seqStep_of_rxHdr hp]
    exact ⟨_, s, rxHdrStep_of_linkFails hf, rfl, rfl⟩
  · rw [seqStep_of_rxBody hp]
    exact ⟨_, s, rxBodyStep_of_linkFails hf, rfl, rfl⟩

/-! ### The steps by what the link primitive returns (R137-R139) -/

variable {l : Link}

theorem sendStep_of_xportErr (e : linkWrite s.seq.txFrame d s.link = (.xportErr, l)) :
    sendStep d s = finishes s { s.seq with writeCount := s.seq.writeCount + 1 } l
      .transportFailure none := by
  simp only [sendStep, e]
  rfl

theorem sendStep_of_ok {bs : List Byte} (e : linkWrite s.seq.txFrame d s.link = (.ok bs, l)) :
    sendStep d s = { s with
      link := l, seq := { s.seq with writeCount := s.seq.writeCount + 1, phase := .rxHdr } } := by
  simp only [sendStep, e]

theorem rxHdrStep_of_xportErr (e : linkRead 2 d s.link = (.xportErr, l)) :
    rxHdrStep d s = finishes s s.seq l .transportFailure none := by
  rw [rxHdrStep, e]
  rfl

theorem rxHdrStep_of_short {h : List Byte} (e : linkRead 2 d s.link = (.ok h, l)) (hl : h.length < 2) :
    rxHdrStep d s = attemptStart { s with
      link := l, seq := { s.seq with rxHdr := h, lastFail := .shortHeader } } := by
  simp only [rxHdrStep, e, if_pos hl, failAttempt]

theorem rxHdrStep_of_whole {h : List Byte} (e : linkRead 2 d s.link = (.ok h, l)) (hl : 2 ≤ h.length) :
    rxHdrStep d s = { s with link := l, seq := { s.seq with
      rxHdr := h, bodyLen := one (min (lengthByte h) 16 + 1), phase := .rxBody } } := by
  simp only [rxHdrStep, e, if_neg (Nat.not_lt.mpr hl)]
  rfl

theorem rxBodyStep_of_xportErr (e : linkRead s.seq.bodyLen.toNat d s.link = (.xportErr, l)) :
    rxBodyStep d s = finishes s s.seq l .transportFailure none := by
  rw [rxBodyStep, e]
  rfl

theorem rxBodyStep_of_short {b : List Byte} (e : linkRead s.seq.bodyLen.toNat d s.link = (.ok b, l))
    (hl : b.length < s.seq.bodyLen.toNat) :
    rxBodyStep d s = attemptStart { s with
      link := l, seq := { s.seq with rxBody := b, lastFail := .shortBody } } := by
  simp only [rxBodyStep, e, if_pos hl, failAttempt]

theorem rxBodyStep_of_whole {b : List Byte} (e : linkRead s.seq.bodyLen.toNat d s.link = (.ok b, l))
    (hl : s.seq.bodyLen.toNat ≤ b.length) :
    rxBodyStep d s = { s with link := l, seq := { s.seq with rxBody := b, phase := .check } } := by
  simp only [rxBodyStep, e, if_neg (Nat.not_lt.mpr hl)]

/-! ### CHECK (R140-R142) -/

theorem validate_rxFrame_iff (s : State) :
    validate (rxFrame s) (some s.seq.reqCmd) = true ↔
      FrameOk (s.seq.rxHdr ++ s.seq.rxBody) ∧ (s.seq.rxHdr ++ s.seq.rxBody).getD 0 0 = s.seq.reqCmd := by
  simp [validate_iff_frameOk, rxFrame]

theorem checkStep_of_valid (h : validate (rxFrame s) (some s.seq.reqCmd) = true) :
    checkStep s = finishes s { s.seq with respPayload := payloadOf (rxFrame s) } s.link .ok
      (some (.bytes (payloadOf (rxFrame s)))) := by
  rw [checkStep, if_pos h, framePayload_eq_payloadOf, complete_ok_eq_finishes]
  rfl

theorem checkStep_of_not_valid (h : ¬ validate (rxFrame s) (some s.seq.reqCmd) = true) :
    checkStep s = attemptStart { s with seq := { s.seq with lastFail := .invalidFrame } } := by
  rw [checkStep, if_neg h, failAttempt]

end

/-! ### EXECUTE's acceptance (R130-R133) -/

theorem exec_execute (cmd ret : Byte) {p : List Byte} (h : p.length ≤ 255) (s : State) :
    exec (.execute cmd ret p) s = .next (acceptExecute cmd ret p s) :=
  encodable_of_le h _

theorem decode_execute_request (cmd ret : Byte) {p : List Byte} (h : p.length ≤ 255) :
    decode ([0x20, 0x00, cmd, ret, one p.length] ++ p) = .instr (.execute cmd ret p) :=
  legalIf_of_eq_true (by simp [one_toNat_of_le h]) _

theorem busy_eq_true_iff (s : State) : busy s = true ↔ s.seq.phase ≠ .idle := decide_eq_true_iff

theorem busy_eq_false_iff (s : State) : busy s = false ↔ s.seq.phase = .idle := by simp [busy]

theorem acceptExecute_of_busy {s : State} (h : busy s = true) (cmd ret : Byte) (p : List Byte) :
    acceptExecute cmd ret p s = answers s .busy none := by
  rw [acceptExecute, if_pos h]
  rfl

theorem acceptExecute_of_precondition {s : State} {cmd : Byte} {p : List Byte} (hi : busy s = false)
    (hp : cmd = s.params.cmdConfigWrite ∧ p.length ≠ 13) (ret : Byte) :
    acceptExecute cmd ret p s =
      finishes s (latch cmd ret s).seq s.link .preconditionViolation none := by
  rw [acceptExecute, hi, if_neg nofun, if_pos hp, complete_eq_finishes_of_ne_ok .preconditionViolation nofun]
  rfl

/-- A latched attempt count of 0 is below any bound of attempts, so the first attempt always starts. -/
theorem acceptExecute_of_accepted {s : State} {cmd : Byte} {p : List Byte} (hi : busy s = false)
    (hp : ¬ (cmd = s.params.cmdConfigWrite ∧ p.length ≠ 13)) (ret : Byte) :
    acceptExecute cmd ret p s = { s with seq := { (latch cmd ret s).seq with
      txFrame := build cmd p, attempt := 1, phase := .flush } } := by
  rw [acceptExecute, hi, if_neg nofun, if_neg hp]
  exact attemptStart_next (Nat.succ_ne_zero _).symm

/-! ### ABORT (R144) -/

theorem exec_abort_of_idle {s : State} (h : busy s = false) :
    exec .abort s = .next (answers s .ok none) := by
  rw [exec, execAbort, abortRequest, h, if_neg nofun]
  rfl

theorem exec_abort_of_busy {s : State} (h : busy s = true) :
    exec .abort s = .next (answers (finishes s s.seq s.link .aborted none) .ok none) := by
  rw [exec, execAbort, abortRequest, if_pos h, complete_eq_finishes_of_ne_ok .aborted nofun]
  rfl

/-! ### The STATUS record in numbers (R145) -/

theorem phaseCode_eq_one (p : Phase) : phaseCode p = one (phaseNumber p) := by cases p <;> rfl

theorem failByte_eq_one (f : FailCode) : failByte f = one (failNumber f) := by cases f <;> rfl

theorem lastStatusByte_eq_one (st : Option Status) : lastStatusByte st = one (statusNumber st) := by
  cases st with
  | none => rfl
  | some st => cases st <;> rfl

theorem halfBytes_eq_two (h : Half) : halfBytes h = two h.toNat := by
  have hhi : h.extractLsb' 8 8 = one (h.toNat / 256) := by
    rw [BitVec.extractLsb', Nat.shiftRight_eq_div_pow]
    rfl
  have hlo : h.extractLsb' 0 8 = one h.toNat := rfl
  rw [halfBytes, hhi, hlo, two]

theorem statusRecord_eq (q : Sequencer) :
    statusRecord q = [one (phaseNumber q.phase)] ++ two q.attempt.toNat ++ [q.maxRetries, q.reqCmd] ++
      two q.writeCount.toNat ++
      [one (statusNumber q.lastStatus), one (failNumber q.lastFail), q.bodyLen] := by
  rw [statusRecord, phaseCode_eq_one, failByte_eq_one, lastStatusByte_eq_one, halfBytes_eq_two,
    halfBytes_eq_two]
  rfl

/-! ### The obligations -/

/-- Settles O24: the config write's length is the only check of an idle block, and the attempt count 0
that the latch leaves lets the first attempt start. -/
theorem executeStartsTheFirstAttempt : Obligations.ExecuteStartsTheFirstAttempt := by
  unfold Obligations.ExecuteStartsTheFirstAttempt
  intro s cmd ret p hi h hp
  have haccepted : ¬ (cmd = s.params.cmdConfigWrite ∧ p.length ≠ 13) := by tauto
  refine ⟨decode_execute_request cmd ret h, ?_⟩
  rw [exec_execute cmd ret h, acceptExecute_of_accepted ((busy_eq_false_iff s).mpr hi) haccepted,
    build_eq]
  rfl

/-- Settles O32: `validate` with the request's command decides the step. -/
theorem checkStepAcceptsOrFailsTheAttempt : Obligations.CheckStepAcceptsOrFailsTheAttempt := by
  unfold Obligations.CheckStepAcceptsOrFailsTheAttempt
  intro d s hp
  rw [seqStep_of_check hp]
  exact ⟨fun h => checkStep_of_valid ((validate_rxFrame_iff s).mpr h),
    fun h => checkStep_of_not_valid (mt (validate_rxFrame_iff s).mp h)⟩

/-- Settles O33: every phase's step is the same transport failure. -/
theorem transportFailureIsNeverRetried : Obligations.TransportFailureIsNeverRetried := by
  unfold Obligations.TransportFailureIsNeverRetried
  intro d s hp hf
  obtain ⟨l, t, e, hattempt, hresults⟩ :=
    seqStep_of_linkFails hp ((linkFails_eq_true_iff d s.link).mpr hf)
  rw [e]
  exact ⟨rfl, rfl, hattempt, by rw [transportFailure_results, hresults]⟩

/-- Settles O60: each step takes its branch by the primitive's answer and by how much was read. -/
theorem linkAnswersDriveTheSteps : Obligations.LinkAnswersDriveTheSteps := by
  unfold Obligations.LinkAnswersDriveTheSteps
  intro d s a l
  refine ⟨fun hp e => ?_, fun hp e => ?_, fun hp e => ?_⟩
  · rw [seqStep_of_send hp]
    cases a with
    | xportErr => exact ⟨fun _ => sendStep_of_xportErr e, fun h => absurd rfl h⟩
    | ok bs => exact ⟨nofun, fun _ => sendStep_of_ok e⟩
  · rw [seqStep_of_rxHdr hp]
    refine ⟨?_, ?_⟩
    · rintro rfl
      exact rxHdrStep_of_xportErr e
    · rintro h rfl
      exact ⟨rxHdrStep_of_short e, rxHdrStep_of_whole e⟩
  · rw [seqStep_of_rxBody hp]
    refine ⟨?_, ?_⟩
    · rintro rfl
      exact rxBodyStep_of_xportErr e
    · rintro b rfl
      exact ⟨rxBodyStep_of_short e, rxBodyStep_of_whole e⟩

/-- Settles O22: the phase is tested before the operands. -/
theorem executeWhileBusyAnswersBusy : Obligations.ExecuteWhileBusyAnswersBusy := by
  unfold Obligations.ExecuteWhileBusyAnswersBusy
  intro s cmd ret p hb h
  rw [exec_execute cmd ret h, acceptExecute_of_busy ((busy_eq_true_iff s).mpr hb)]

/-- Settles O23: the EXECUTE ends on its latched registers, with the frame register as it was. -/
theorem executeChecksConfigWriteLength : Obligations.ExecuteChecksConfigWriteLength := by
  unfold Obligations.ExecuteChecksConfigWriteLength
  intro s ret p hi h h13
  refine ⟨s.seq.txFrame, ?_⟩
  rw [exec_execute _ ret h, acceptExecute_of_precondition ((busy_eq_false_iff s).mpr hi) ⟨rfl, h13⟩]
  rfl

/-- Settles O25: while busy the EXECUTE's ABORTED is delivered first, then ABORT's own OK. -/
theorem abortEndsTheExecute : Obligations.AbortEndsTheExecute := by
  unfold Obligations.AbortEndsTheExecute
  intro s
  refine ⟨rfl, fun hi => exec_abort_of_idle ((busy_eq_false_iff s).mpr hi),
    fun hb => ⟨_, List.Perm.refl _, ?_⟩⟩
  rw [exec_abort_of_busy ((busy_eq_true_iff s).mpr hb)]
  simp [answers, finishes]

/-- Settles O26: the record is the ten bytes in their codes. -/
theorem statusReturnsTheRegisterRecord : Obligations.StatusReturnsTheRegisterRecord := by
  unfold Obligations.StatusReturnsTheRegisterRecord
  intro s
  refine ⟨rfl, ?_⟩
  rw [exec, execStatus, statusRecord_eq]
  rfl

/-- Settles O27, by the two cases of the attempt start. -/
theorem attemptStartIsBounded : Obligations.AttemptStartIsBounded := by
  unfold Obligations.AttemptStartIsBounded
  intro s
  refine ⟨fun h => ?_, attemptStart_next⟩
  rw [attemptStart_exhausted h, complete_eq_finishes_of_ne_ok .retriesExhausted nofun]

/-- Settles O28, by the two cases of the flush. -/
theorem flushStepEmptiesTheReceiveBuffer : Obligations.FlushStepEmptiesTheReceiveBuffer := by
  unfold Obligations.FlushStepEmptiesTheReceiveBuffer
  intro d s hp
  rw [seqStep_of_flush hp]
  refine ⟨fun h => flushStep_of_not_linkFails ((linkFails_eq_false_iff d s.link).mpr h),
    fun h => ⟨d.rxAfter, ?_⟩⟩
  rw [flushStep_of_linkFails ((linkFails_eq_true_iff d s.link).mpr h), transportFailure_eq_finishes]

end Sys2Proof.Cert

/-! SUPPORT and proofs for the calibration decoder (42_calibration_decoder.md). -/

namespace Sys2Proof.Cert

open Sys2Proof.Machine

/-! ### The requests of the DECODE operations -/

/-- A two-byte field written as a number is read back as the field (R87). -/
theorem be16_two (h : Half) : be16 (one (h.toNat / 256)) (one h.toNat) = h := by
  have hlt := h.isLt
  exact BitVec.eq_of_toNat_eq (be16_two_toNat (by omega))

/-- The entry descriptor of a Bit request, as the statements write it (R84). -/
theorem one_eq_krByte_bit (r : Representation) (bit : BitVec 3) :
    one (16 * reprNumber r + bit.toNat) = krByte 0 r bit := by
  cases r <;> revert bit <;> decide

/-- A request of the DECODE family is the variant its entry descriptor selects (R82, R86). -/
theorem decode_family {kr : Nat} {k : BitVec 2} {r : Representation} {bit : BitVec 3}
    (hkr : one kr = krByte k r bit) (off : Half) (len : Byte) {buf : List Byte} (h : buf.length ≤ 65535) :
    decode (family kr off len buf) = decodeVariant (krByte k r bit) off len buf := by
  change decodeFamily (one kr) (one (off.toNat / 256) :: one off.toNat :: len ::
    one (buf.length / 256) :: one buf.length :: buf) = _
  rw [decodeFamily, hkr, be16_two, be16_two_toNat h]
  simp

theorem decode_family_bit (r : Representation) (bit : BitVec 3) (off : Half) {buf : List Byte}
    (h : buf.length ≤ 65535) :
    decode (family (16 * reprNumber r + bit.toNat) off 0 buf) = .instr (.decodeBit r bit off buf) := by
  rw [decode_family (one_eq_krByte_bit r bit) off 0 h]
  simp [decodeVariant, legalIf]

theorem decode_family_byte {kr : Nat} {r : Representation} (hkr : one kr = krByte 1 r 0) (off : Half)
    {buf : List Byte} (h : buf.length ≤ 65535) :
    decode (family kr off 0 buf) = .instr (byteVariant r off buf) := by
  rw [decode_family hkr off 0 h]
  simp [decodeVariant, legalIf]

theorem lenLegal_of_ne_zero {len : Byte} (h : len ≠ 0) : lenLegal len = true := decide_eq_true h

theorem decode_family_mb {kr : Nat} {r : Representation} (hkr : one kr = krByte 2 r 0) (off : Half)
    {len : Byte} (hlen : len ≠ 0) {buf : List Byte} (h : buf.length ≤ 65535) :
    decode (family kr off len buf) = .instr (mbVariant r off len buf) := by
  rw [decode_family hkr off len h]
  simp [decodeVariant, legalIf, lenLegal_of_ne_zero hlen]

theorem decode_named_request (idx : Half) {buf : List Byte} (h : buf.length ≤ 65535) :
    decode ([0x11, 0x00] ++ two idx.toNat ++ two buf.length ++ buf) = .instr (.decodeNamed idx buf) := by
  change decodeNamedReq 0x00 (one (idx.toNat / 256) :: one idx.toNat ::
    one (buf.length / 256) :: one buf.length :: buf) = _
  rw [decodeNamedReq, be16_two, be16_two_toNat h]
  exact legalIf_of_eq_true (by simp) _

theorem decode_all_request {buf : List Byte} (h : buf.length ≤ 65535) :
    decode ([0x12, 0x01] ++ two buf.length ++ buf) = .instr (.decodeAll (some buf)) :=
  legalIf_of_eq_true (by simp [be16_two_toNat h]) _

/-! ### The answers of the decodes -/

theorem runDecode_answers {buf : List Byte} (h : buf.length ≤ 65535) (v : Option DecodedValue) (s : State) :
    runDecode buf v s = .next (optionAnswer s v) := by
  rw [runDecode_of_fits (bufferFits_of_le h)]
  cases v <;> rfl

theorem runMbDecode_answers {len : Byte} (hlen : lenLegal len = true) {buf : List Byte}
    (h : buf.length ≤ 65535) (v : Option DecodedValue) (s : State) :
    runMbDecode len buf v s = .next (optionAnswer s v) := by
  rw [runMbDecode_of_fits (bufferFits_of_le h), resultOfMb, if_pos hlen]
  cases v <;> rfl

/-- A decode of one byte is ABSENT exactly where the byte is outside the buffer (R164). -/
theorem optionAnswer_map_memRead_one (s : State) (off : Half) (buf : List Byte)
    (f : List Byte → DecodedValue) :
    optionAnswer s ((memRead buf off.toNat 1).map f) = byteAnswer s off buf fun x => f [x] := by
  rw [memRead_one, byteAnswer]
  cases buf[off.toNat]? <;> rfl

/-- A decode of `len` bytes is ABSENT exactly where they are not all inside the buffer (R164). -/
theorem optionAnswer_map_memRead (s : State) (off : Half) (len : Byte) (buf : List Byte)
    (f : List Byte → DecodedValue) :
    optionAnswer s ((memRead buf off.toNat len.toNat).map f) = fieldAnswer s off len buf f := by
  rw [fieldAnswer]
  split_ifs with hin
  · rw [memRead_eq_some hin]
    rfl
  · rw [memRead_eq_none (by omega)]
    rfl

/-- An operation that reads one byte, in the words of the statements. -/
theorem runDecode_byte_answers {buf : List Byte} (h : buf.length ≤ 65535) (off : Half)
    (f : List Byte → DecodedValue) (s : State) :
    runDecode buf ((memRead buf off.toNat 1).map f) s = .next (byteAnswer s off buf fun x => f [x]) := by
  rw [runDecode_answers h, optionAnswer_map_memRead_one]

/-- An operation that reads `len` bytes, in the words of the statements. -/
theorem runMbDecode_field_answers {len : Byte} (hlen : len ≠ 0) {buf : List Byte} (h : buf.length ≤ 65535)
    (off : Half) (f : List Byte → DecodedValue) (s : State) :
    runMbDecode len buf ((memRead buf off.toNat len.toNat).map f) s =
      .next (fieldAnswer s off len buf f) := by
  rw [runMbDecode_answers (lenLegal_of_ne_zero hlen) h, optionAnswer_map_memRead]

/-! ### The decoded values in the words of the statements -/

/-- Shifting and masking reads the bit as arithmetic does (R165). -/
theorem shiftRight_and_one_toNat (x : Byte) (k : Nat) : ((x >>> k) &&& 1).toNat = x.toNat / 2 ^ k % 2 := by
  simp [Nat.shiftRight_eq_div_pow, Nat.and_one_is_mod]

theorem bigEndian_append_singleton (bs : List Byte) (b : Byte) :
    bigEndian (bs ++ [b]) = 256 * bigEndian bs + b.toNat := by
  have hweight : ∀ i ∈ List.range bs.length,
      ((bs ++ [b]).getD i 0).toNat * 256 ^ (bs.length - i) =
        256 * ((bs.getD i 0).toNat * 256 ^ (bs.length - 1 - i)) := by
    intro i hi
    have hi : i < bs.length := List.mem_range.mp hi
    rw [List.getD_append _ _ _ _ hi, show bs.length - i = bs.length - 1 - i + 1 by omega, pow_succ]
    ring
  have hlast : (bs ++ [b]).getD bs.length 0 = b := by simp
  rw [bigEndian, List.length_append, List.length_singleton, Nat.add_sub_cancel, List.range_succ,
    List.map_append, List.sum_append, List.map_congr_left hweight, List.sum_map_mul_left, List.map_singleton,
    List.sum_singleton, hlast, Nat.sub_self, pow_zero, mul_one, bigEndian]

/-- Horner's rule gives the sum of R14. -/
theorem beUint_eq_bigEndian (bs : List Byte) : beUint bs = bigEndian bs := by
  induction bs using List.reverseRecOn with
  | nil => rfl
  | append_singleton bs b ih => rw [beUint_append_singleton, bigEndian_append_singleton, ih]

theorem hexDigit_eq_digit (d : BitVec 4) : hexDigit d = digit d.toNat := by
  revert d; decide

theorem hexText_eq (bs : List Byte) :
    hexText bs = bs.flatMap fun b => [digit (b.toNat / 16), digit (b.toNat % 16)] := by
  have hhigh : ∀ b : Byte, (b.extractLsb' 4 4).toNat = b.toNat / 16 := fun b => by
    have hlt := b.isLt
    rw [BitVec.extractLsb'_toNat, Nat.shiftRight_eq_div_pow]
    omega
  have hlow : ∀ b : Byte, (b.extractLsb' 0 4).toNat = b.toNat % 16 := fun b => by
    rw [BitVec.extractLsb'_toNat, Nat.shiftRight_zero]
  simp only [hexText, hexDigit_eq_digit, hhigh, hlow]

/-! ### The view of DECODE.ALL -/

/-- One round of R179's loop: the entry's name and value are appended unless it is absent. -/
def appendPresent (ah : AsciiHigh) (buf : List Byte) (view : List (Text × DecodedValue)) (e : SchemaEntry) :
    List (Text × DecodedValue) :=
  match decodeField ah buf e with
  | some v => view ++ [(e.name, v)]
  | none => view

theorem foldl_appendPresent (ah : AsciiHigh) (buf : List Byte) (l : List SchemaEntry)
    (view : List (Text × DecodedValue)) :
    l.foldl (appendPresent ah buf) view =
      view ++ l.filterMap fun e => (decodeField ah buf e).map fun v => (e.name, v) := by
  induction l generalizing view with
  | nil => simp
  | cons e l ih =>
    rw [List.foldl_cons, ih, appendPresent]
    cases hv : decodeField ah buf e <;> simp [hv]

/-- The view is what R179's loop over the schema builds. -/
theorem decodeView_eq_foldl (p : Params) (buf : List Byte) :
    decodeView p buf = p.schema.foldl (appendPresent p.asciiHigh buf) [] := by
  rw [foldl_appendPresent, List.nil_append, decodeView]

theorem exec_decodeAll_some {buf : List Byte} (h : buf.length ≤ 65535) (s : State) :
    exec (.decodeAll (some buf)) s = .next (answers s .ok (some (.view (decodeView s.params buf)))) :=
  exec_pure_answers (i := .decodeAll (some buf)) rfl (bufferFits_of_le h) s

/-! ### The statements -/

/-- Settles O7: the four descriptors differ in the representation only, which the decode does not read. -/
theorem decodeBitReadsOneBit : Obligations.DecodeBitReadsOneBit := by
  unfold Obligations.DecodeBitReadsOneBit
  intro s r bit off buf h
  refine ⟨decode_family_bit r bit off h, ?_⟩
  simp only [← shiftRight_and_one_toNat]
  exact runDecode_byte_answers h off _ s

/-- Settles O8: Hex and Ascii bytes decode as Unsigned ones. -/
theorem decodeByteReadsUnsigned : Obligations.DecodeByteReadsUnsigned := by
  unfold Obligations.DecodeByteReadsUnsigned
  intro s off buf h
  have hvalue := runDecode_byte_answers h off (fun x => .uint (byteAt x 0).toNat) s
  exact ⟨decode_family_byte (r := .unsigned) (by decide) off h,
    decode_family_byte (r := .hex) (by decide) off h,
    decode_family_byte (r := .ascii) (by decide) off h, hvalue, hvalue, hvalue⟩

/-- Settles O9: `sext_8` is the two's-complement reading. -/
theorem decodeByteSignedIsTwosComplement : Obligations.DecodeByteSignedIsTwosComplement := by
  unfold Obligations.DecodeByteSignedIsTwosComplement
  intro s off buf h
  exact ⟨decode_family_byte (r := .signed) (by decide) off h,
    runDecode_byte_answers h off (fun x => .sint (sext8 (byteAt x 0))) s⟩

/-- Settles O10: the decoder's Horner scheme is the big-endian sum, for Signed fields too. -/
theorem decodeMultibyteIsBigEndian : Obligations.DecodeMultibyteIsBigEndian := by
  unfold Obligations.DecodeMultibyteIsBigEndian
  intro s off len buf hlen h
  simp only [← beUint_eq_bigEndian]
  have hvalue := runMbDecode_field_answers hlen h off (fun x => .uint (beUint x)) s
  exact ⟨decode_family_mb (r := .unsigned) (by decide) off hlen h,
    decode_family_mb (r := .signed) (by decide) off hlen h, hvalue, hvalue⟩

/-- Settles O11: the model's digits are those of the string of R173, one for each nibble. -/
theorem decodeMultibyteHexRendersDigits : Obligations.DecodeMultibyteHexRendersDigits := by
  unfold Obligations.DecodeMultibyteHexRendersDigits
  intro s off len buf hlen h
  simp only [← hexText_eq]
  exact ⟨decode_family_mb (r := .hex) (by decide) off hlen h,
    runMbDecode_field_answers hlen h off (fun x => .hex (hexText x)) s⟩

/-- Settles O14, by the entry's kind and representation; a legal Multibyte entry has a length (R162). -/
theorem decodeFieldFollowsKindAndRepresentation : Obligations.DecodeFieldFollowsKindAndRepresentation := by
  unfold Obligations.DecodeFieldFollowsKindAndRepresentation
  rintro s ⟨name, off, kind, repr, range, readonly⟩ buf hwf h
  cases kind with
  | bit i => exact runDecode_answers h _ s
  | byte => cases repr <;> exact runDecode_answers h _ s
  | multibyte len => cases repr <;> exact runMbDecode_answers hwf h _ s

/-- Settles O15: the index selects the entry, and one beyond the schema is ABSENT. -/
theorem decodeNamedReadsTheSchema : Obligations.DecodeNamedReadsTheSchema := by
  unfold Obligations.DecodeNamedReadsTheSchema
  intro s idx buf h
  refine ⟨decode_named_request idx h, fun hidx => exec_decodeNamed_of_length_le hidx h, fun e he => ?_⟩
  have hentry : decodeNamed s.params idx buf = decodeField s.params.asciiHigh buf e := by
    rw [decodeNamed, he]
  rw [← hentry]
  exact runDecode_answers h _ s

/-- Settles O16: the view of a present buffer is the loop over the schema, and an absent one has none. -/
theorem decodeAllCollectsPresentFields : Obligations.DecodeAllCollectsPresentFields := by
  unfold Obligations.DecodeAllCollectsPresentFields
  intro s buf h
  refine ⟨rfl, decode_all_request h, rfl, ?_⟩
  rw [exec_decodeAll_some h, decodeView_eq_foldl]
  rfl

end Sys2Proof.Cert

/-! SUPPORT and proofs for reset (70_reset_and_hazards.md). -/

namespace Sys2Proof.Cert

open Sys2Proof.Machine

/-! ### STATUS in terms of the record, and a step on a reset -/

theorem exec_status (s : State) :
    exec .status s = .next (answers s .ok (some (.bytes (statusRecord s.seq)))) := rfl

@[simp] theorem state_reset_seq : State.reset.seq = Sequencer.reset := rfl

theorem statusRecord_reset : statusRecord Sequencer.reset = [0, 0, 0, 0, 0, 0, 0, 0xFF, 0, 0] := by decide

theorem step_of_reset {s : State} {rest : List Event} (h : s.inputs = .reset :: rest) :
    step s = .next (applyReset { s with inputs := rest }) := by
  rw [step, takeInput, h]

/-! ### The statements -/

/-- Settles O54: LAST_STATUS alone has a code other than 0, and an applied reset writes the registers of
the reset state. -/
theorem resetRegisters : Obligations.ResetRegisters := by
  unfold Obligations.ResetRegisters
  refine ⟨rfl, ?_, fun s rest h => ⟨_, step_of_reset h, applyReset_seq _⟩⟩
  rw [exec_status, state_reset_seq, statusRecord_reset]

/-- Settles O55: a step on a reset is `applyReset` at the state without the event. -/
theorem resetAbandonsTheExecute : Obligations.ResetAbandonsTheExecute := by
  unfold Obligations.ResetAbandonsTheExecute
  intro s rest h
  rw [step_of_reset h]
  rfl

end Sys2Proof.Cert

/-! SUPPORT and proofs for the round trip of the encoding (30_encoding.md sections 2 and 3). -/

namespace Sys2Proof.Cert

open Sys2Proof.Machine

/-! ### The encoder's fields in the words of the statements -/

theorem be16Bytes_eq_two (h : Half) : be16Bytes h = two h.toNat := halfBytes_eq_two h

theorem countM_eq_two {buf : List Byte} (h : buf.length ≤ 65535) : countM buf = two buf.length := by
  rw [countM, be16Bytes_eq_two, BitVec.toNat_ofNat, Nat.mod_eq_of_lt (by omega)]

theorem familyBytes_eq_family (kr : Byte) (off : Half) (len : Byte) {buf : List Byte}
    (h : buf.length ≤ 65535) : familyBytes kr off len buf = family kr.toNat off len buf := by
  have hkr : one kr.toNat = kr := by simp [one]
  rw [familyBytes, be16Bytes_eq_two, countM_eq_two h, family, hkr]
  rfl

theorem le_of_payloadFits {p : List Byte} (h : payloadFits p = true) : p.length ≤ 255 := of_decide_eq_true h

theorem le_of_bufferFits {b : List Byte} (h : bufferFits b = true) : b.length ≤ 65535 := of_decide_eq_true h

/-! ### Encode, then decode -/

/-- The descriptor byte of a DECODE request selects the variant (R84, R86). -/
theorem decode_familyBytes (k : BitVec 2) (r : Representation) (bit : BitVec 3) (off : Half) (len : Byte)
    {buf : List Byte} (h : bufferFits buf = true) :
    decode (familyBytes (krByte k r bit) off len buf) = decodeVariant (krByte k r bit) off len buf := by
  rw [familyBytes_eq_family _ off len (le_of_bufferFits h)]
  exact decode_family (by simp [one]) off len (le_of_bufferFits h)

theorem decode_familyBytes_bit (r : Representation) (bit : BitVec 3) (off : Half) {buf : List Byte}
    (h : bufferFits buf = true) :
    decode (familyBytes (krByte 0 r bit) off 0 buf) = .instr (.decodeBit r bit off buf) := by
  rw [decode_familyBytes 0 r bit off 0 h]
  simp [decodeVariant, legalIf]

theorem decode_familyBytes_byte (r : Representation) (off : Half) {buf : List Byte}
    (h : bufferFits buf = true) :
    decode (familyBytes (krByte 1 r 0) off 0 buf) = .instr (byteVariant r off buf) := by
  rw [decode_familyBytes 1 r 0 off 0 h]
  simp [decodeVariant, legalIf]

theorem decode_familyBytes_mb (r : Representation) (off : Half) {len : Byte} {buf : List Byte}
    (h : (lenLegal len && bufferFits buf) = true) :
    decode (familyBytes (krByte 2 r 0) off len buf) = .instr (mbVariant r off len buf) := by
  obtain ⟨hlen, hbuf⟩ := (Bool.and_eq_true _ _).mp h
  rw [decode_familyBytes 2 r 0 off len hbuf]
  simp [decodeVariant, legalIf, hlen]

theorem decode_encodeBytes {i : Instr} (hw : i.wf = true) : decode (encodeBytes i) = .instr i := by
  cases i with
  | build cmd p => exact decode_build_request cmd (le_of_payloadFits hw)
  | validate exp bs =>
    cases exp with
    | none =>
      rw [encodeBytes, countM_eq_two (le_of_bufferFits hw)]
      exact decode_validate_request (le_of_bufferFits hw)
    | some e =>
      rw [encodeBytes, countM_eq_two (le_of_bufferFits hw)]
      exact decode_validate_expected_request e (le_of_bufferFits hw)
  | parse bs =>
    rw [encodeBytes, countM_eq_two (le_of_bufferFits hw)]
    exact decode_parse_request (le_of_bufferFits hw)
  | decodeBit r bit off buf => exact decode_familyBytes_bit r bit off hw
  | decodeByteU off buf => exact decode_familyBytes_byte .unsigned off hw
  | decodeByteS off buf => exact decode_familyBytes_byte .signed off hw
  | decodeByteH off buf => exact decode_familyBytes_byte .hex off hw
  | decodeByteA off buf => exact decode_familyBytes_byte .ascii off hw
  | decodeMbU off len buf => exact decode_familyBytes_mb .unsigned off hw
  | decodeMbS off len buf => exact decode_familyBytes_mb .signed off hw
  | decodeMbH off len buf => exact decode_familyBytes_mb .hex off hw
  | decodeMbA off len buf => exact decode_familyBytes_mb .ascii off hw
  | decodeNamed idx buf =>
    rw [encodeBytes, be16Bytes_eq_two, countM_eq_two (le_of_bufferFits hw)]
    exact decode_named_request idx (le_of_bufferFits hw)
  | decodeAll buf =>
    cases buf with
    | none => rfl
    | some buf =>
      rw [encodeBytes, countM_eq_two (le_of_bufferFits hw)]
      exact decode_all_request (le_of_bufferFits hw)
  | execute cmd ret p => exact decode_execute_request cmd ret (le_of_payloadFits hw)
  | abort => rfl
  | status => rfl

/-- Settles O39: every layout of R82 is read back field by field. -/
theorem decodeInvertsEncode : Obligations.DecodeInvertsEncode := by
  unfold Obligations.DecodeInvertsEncode
  exact fun i hw => ⟨if_pos hw, decode_encodeBytes hw⟩

/-! ### Decode, then encode -/

/-- The request `r` is the one encoding of `i` (R91). -/
def EncodesTo (i : Instr) (r : List Byte) : Prop := i.wf = true ∧ encodeBytes i = r

/-- What the layout's condition has to give, where a layout has one instruction. -/
theorem encodesTo_of_legalIf {c : Bool} {i j : Instr} {r : List Byte} (h : legalIf c i = .instr j)
    (hc : c = true → EncodesTo i r) : EncodesTo j r := by
  obtain ⟨htrue, rfl⟩ := legalIf_eq_instr.mp h
  exact hc htrue

/-- A payload as long as its count field says fits, and the field is its length (R82, R91). -/
theorem payload_of_count {p : List Byte} {n : Byte} (h : p.length = n.toNat) :
    payloadFits p = true ∧ BitVec.ofNat 8 p.length = n := by
  have hlt := n.isLt
  exact ⟨payloadFits_of_le (by omega), by rw [h, BitVec.ofNat_toNat, BitVec.setWidth_eq]⟩

/-- A buffer as long as its count field says fits, and the field is its length (R82, R91). -/
theorem buffer_of_count {buf : List Byte} {m1 m0 : Byte} (h : buf.length = (be16 m1 m0).toNat) :
    bufferFits buf = true ∧ countM buf = [m1, m0] := by
  have hlt := (be16 m1 m0).isLt
  refine ⟨bufferFits_of_le (by omega), ?_⟩
  rw [countM, be16Bytes, h, BitVec.ofNat_toNat, BitVec.setWidth_eq, be16_hi, be16_lo]

theorem be16Bytes_be16 (hi lo : Byte) : be16Bytes (be16 hi lo) = [hi, lo] := by
  rw [be16Bytes, be16_hi, be16_lo]

theorem encodesTo_of_decodeBuild {mod : Byte} {ops : List Byte} {i : Instr}
    (h : decodeBuild mod ops = .instr i) : EncodesTo i (0x01 :: mod :: ops) := by
  match ops, h with
  | cmd :: n :: p, h =>
    refine encodesTo_of_legalIf h fun hc => ?_
    simp only [Bool.and_eq_true, decide_eq_true_eq] at hc
    obtain ⟨rfl, hn⟩ := hc
    obtain ⟨hfits, hcount⟩ := payload_of_count hn
    exact ⟨hfits, by rw [encodeBytes, hcount]⟩

theorem encodesTo_of_decodeValidate {flg : Byte} {ops : List Byte} {i : Instr}
    (h : decodeValidate flg ops = .instr i) : EncodesTo i (0x02 :: flg :: ops) := by
  match ops, h with
  | exp :: m1 :: m0 :: bs, h =>
    rw [decodeValidate] at h
    split_ifs at h with hE <;> refine encodesTo_of_legalIf h fun hc => ?_
    all_goals
      simp only [Bool.and_eq_true, decide_eq_true_eq] at hc
      obtain ⟨rfl, hn⟩ := hc
      obtain ⟨hfits, hcount⟩ := buffer_of_count hn
    · exact ⟨hfits, by rw [encodeBytes, hcount, hE]; rfl⟩
    · exact ⟨hfits, by rw [encodeBytes, hcount]; rfl⟩

theorem encodesTo_of_decodeParse {mod : Byte} {ops : List Byte} {i : Instr}
    (h : decodeParse mod ops = .instr i) : EncodesTo i (0x03 :: mod :: ops) := by
  match ops, h with
  | m1 :: m0 :: bs, h =>
    refine encodesTo_of_legalIf h fun hc => ?_
    simp only [Bool.and_eq_true, decide_eq_true_eq] at hc
    obtain ⟨rfl, hn⟩ := hc
    obtain ⟨hfits, hcount⟩ := buffer_of_count hn
    exact ⟨hfits, by rw [encodeBytes, hcount]; rfl⟩

theorem encodeBytes_byteVariant (r : Representation) (off : Half) (buf : List Byte) :
    encodeBytes (byteVariant r off buf) = familyBytes (krByte 1 r 0) off 0 buf := by cases r <;> rfl

theorem encodeBytes_mbVariant (r : Representation) (off : Half) (len : Byte) (buf : List Byte) :
    encodeBytes (mbVariant r off len buf) = familyBytes (krByte 2 r 0) off len buf := by cases r <;> rfl

theorem wf_byteVariant (r : Representation) (off : Half) (buf : List Byte) :
    (byteVariant r off buf).wf = bufferFits buf := by cases r <;> rfl

theorem wf_mbVariant (r : Representation) (off : Half) (len : Byte) (buf : List Byte) :
    (mbVariant r off len buf).wf = (lenLegal len && bufferFits buf) := by cases r <;> rfl

/-- The variant's own descriptor byte is put together from the fields it was selected by (R84). -/
theorem encodesTo_of_decodeVariant {kr len : Byte} {off : Half} {buf : List Byte} {i : Instr}
    (hr : krReserved kr = false) (hbuf : bufferFits buf = true)
    (h : decodeVariant kr off len buf = .instr i) : EncodesTo i (familyBytes kr off len buf) := by
  have hkr := krByte_of_fields kr hr
  rw [decodeVariant] at h
  split_ifs at h with h0 h1 h2 <;> refine encodesTo_of_legalIf h fun hc => ?_
  all_goals simp only [Bool.and_eq_true, decide_eq_true_eq] at hc
  · subst hc
    exact ⟨hbuf, by rw [encodeBytes, ← h0, hkr]⟩
  · obtain ⟨hbit, rfl⟩ := hc
    rw [h1, hbit] at hkr
    exact ⟨by rw [wf_byteVariant, hbuf], by rw [encodeBytes_byteVariant, hkr]⟩
  · obtain ⟨hbit, hlen⟩ := hc
    rw [h2, hbit] at hkr
    exact ⟨by rw [wf_mbVariant, hlen, hbuf]; rfl, by rw [encodeBytes_mbVariant, hkr]⟩

theorem encodesTo_of_decodeFamily {kr : Byte} {ops : List Byte} {i : Instr}
    (h : decodeFamily kr ops = .instr i) : EncodesTo i (0x10 :: kr :: ops) := by
  match ops, h with
  | o1 :: o0 :: len :: m1 :: m0 :: buf, h =>
    rw [decodeFamily] at h
    split_ifs at h with hc
    simp only [Bool.and_eq_true, Bool.not_eq_true', decide_eq_true_eq] at hc
    obtain ⟨hr, hn⟩ := hc
    obtain ⟨hfits, hcount⟩ := buffer_of_count hn
    have hbytes : familyBytes kr (be16 o1 o0) len buf = 0x10 :: kr :: o1 :: o0 :: len :: m1 :: m0 :: buf := by
      rw [familyBytes, be16Bytes_be16, hcount]; rfl
    exact hbytes ▸ encodesTo_of_decodeVariant hr hfits h

theorem encodesTo_of_decodeNamedReq {mod : Byte} {ops : List Byte} {i : Instr}
    (h : decodeNamedReq mod ops = .instr i) : EncodesTo i (0x11 :: mod :: ops) := by
  match ops, h with
  | i1 :: i0 :: m1 :: m0 :: buf, h =>
    refine encodesTo_of_legalIf h fun hc => ?_
    simp only [Bool.and_eq_true, decide_eq_true_eq] at hc
    obtain ⟨rfl, hn⟩ := hc
    obtain ⟨hfits, hcount⟩ := buffer_of_count hn
    exact ⟨hfits, by rw [encodeBytes, be16Bytes_be16, hcount]; rfl⟩

theorem encodesTo_of_decodeAllReq {flg : Byte} {ops : List Byte} {i : Instr}
    (h : decodeAllReq flg ops = .instr i) : EncodesTo i (0x12 :: flg :: ops) := by
  match ops, h with
  | m1 :: m0 :: buf, h =>
    rw [decodeAllReq] at h
    split_ifs at h with hP <;> refine encodesTo_of_legalIf h fun hc => ?_
    all_goals simp only [Bool.and_eq_true, decide_eq_true_eq, List.isEmpty_iff] at hc
    · obtain ⟨hm, rfl⟩ := hc
      have hbytes : [m1, m0] = [0x00, 0x00] := by rw [← be16Bytes_be16, hm]; rfl
      exact ⟨rfl, by rw [hP, hbytes]; rfl⟩
    · obtain ⟨rfl, hn⟩ := hc
      obtain ⟨hfits, hcount⟩ := buffer_of_count hn
      exact ⟨hfits, by rw [encodeBytes, hcount]; rfl⟩

theorem encodesTo_of_decodeExecute {mod : Byte} {ops : List Byte} {i : Instr}
    (h : decodeExecute mod ops = .instr i) : EncodesTo i (0x20 :: mod :: ops) := by
  match ops, h with
  | cmd :: ret :: n :: p, h =>
    refine encodesTo_of_legalIf h fun hc => ?_
    simp only [Bool.and_eq_true, decide_eq_true_eq] at hc
    obtain ⟨rfl, hn⟩ := hc
    obtain ⟨hfits, hcount⟩ := payload_of_count hn
    exact ⟨hfits, by rw [encodeBytes, hcount]⟩

theorem encodesTo_of_decodeBare {op mod : Byte} {ops : List Byte} {i j : Instr}
    (hi : EncodesTo i [op, 0x00]) (h : decodeBare i mod ops = .instr j) : EncodesTo j (op :: mod :: ops) := by
  refine encodesTo_of_legalIf h fun hc => ?_
  simp only [Bool.and_eq_true, decide_eq_true_eq, List.isEmpty_iff] at hc
  obtain ⟨rfl, rfl⟩ := hc
  exact hi

theorem encodesTo_of_decode {r : List Byte} {i : Instr} (h : decode r = .instr i) : EncodesTo i r := by
  obtain ⟨h2, ha, -⟩ := (exists_decode_eq_instr_iff r).mp ⟨i, h⟩
  match r with
  | op :: mod :: ops =>
    rw [at_cons_zero, assigned_toNat_iff] at ha
    simp only [List.mem_cons, List.not_mem_nil, or_false] at ha
    rcases ha with rfl | rfl | rfl | rfl | rfl | rfl | rfl | rfl | rfl
    · exact encodesTo_of_decodeBuild h
    · exact encodesTo_of_decodeValidate h
    · exact encodesTo_of_decodeParse h
    · exact encodesTo_of_decodeFamily h
    · exact encodesTo_of_decodeNamedReq h
    · exact encodesTo_of_decodeAllReq h
    · exact encodesTo_of_decodeExecute h
    · exact encodesTo_of_decodeBare ⟨rfl, rfl⟩ h
    · exact encodesTo_of_decodeBare ⟨rfl, rfl⟩ h

theorem wf_of_decode {r : List Byte} {i : Instr} (h : decode r = .instr i) : i.wf = true :=
  (encodesTo_of_decode h).1

/-- Settles O40: each layout's condition makes every byte of the request the encoder's. -/
theorem encodeInvertsDecode : Obligations.EncodeInvertsDecode := by
  unfold Obligations.EncodeInvertsDecode
  intro r i h
  obtain ⟨hw, hbytes⟩ := encodesTo_of_decode h
  exact ⟨hw, by rw [encode, if_pos hw, hbytes]⟩

/-! ### The length of a request (R88) -/

/-- The count field stands in the first 7 bytes of every layout. -/
theorem requestLength_take_seven {r : List Byte} (ha : assigned (at_ r 0)) (h2 : 2 ≤ r.length)
    (hfixed : fixedLength (at_ r 0) ≤ r.length) : requestLength (r.take 7) = some (totalLength r) := by
  match r with
  | op :: mod :: ops =>
    rw [at_cons_zero, assigned_toNat_iff] at ha
    simp only [List.mem_cons, List.not_mem_nil, or_false] at ha
    rcases ha with rfl | rfl | rfl | rfl | rfl | rfl | rfl | rfl | rfl
    · match ops with
      | _ :: _ :: _ => rfl
    · match ops with
      | _ :: m1 :: m0 :: _ => exact congrArg (fun m => some (5 + m)) (be16_toNat m1 m0)
    · match ops with
      | m1 :: m0 :: _ => exact congrArg (fun m => some (4 + m)) (be16_toNat m1 m0)
    · match ops with
      | _ :: _ :: _ :: m1 :: m0 :: _ => exact congrArg (fun m => some (7 + m)) (be16_toNat m1 m0)
    · match ops with
      | _ :: _ :: m1 :: m0 :: _ => exact congrArg (fun m => some (6 + m)) (be16_toNat m1 m0)
    · match ops with
      | m1 :: m0 :: _ => exact congrArg (fun m => some (4 + m)) (be16_toNat m1 m0)
    · match ops with
      | _ :: _ :: _ :: _ => rfl
    · rfl
    · rfl

/-- Settles O42: a request that decodes has the length of R82, which its first 7 bytes hold. -/
theorem sevenBytesTellTheLength : Obligations.SevenBytesTellTheLength := by
  unfold Obligations.SevenBytesTellTheLength
  intro r i h
  obtain ⟨h2, ha, hm⟩ := (exists_decode_eq_instr_iff r).mp ⟨i, h⟩
  have hlen : r.length = totalLength r := by
    by_contra hne
    exact hm (.inl hne)
  rw [requestLength_take_seven ha h2 (hlen ▸ fixedLength_le_totalLength r), ← hlen]

/-! ### What an operation answers, and what cannot be encoded (R91) -/

theorem encodable_eq_next {n max : Nat} {t u : State} (h : encodable n max t = .next u) : t = u ∧ n ≤ max := by
  rw [encodable] at h
  split_ifs at h with hle
  exact ⟨Host.Outcome.next.inj h, hle⟩

theorem returnDecoded_eq_resultOfDecoded (v : Option DecodedValue) (s : State) :
    returnDecoded v s = deliver .immediate (resultOfDecoded v) s := by cases v <;> rfl

theorem returnParsed_eq_pureResult (bs : List Byte) (s : State) :
    returnParsed (parse bs) s = deliver .immediate (pureResult s.params (.parse bs)) s := by
  rw [pureResult]
  cases parse bs <;> rfl

theorem mbAnswer_eq_resultOfMb (len : Byte) (v : Option DecodedValue) (s : State) :
    (if lenLegal len then returnDecoded v s else raise .malformedRequest s) =
      deliver .immediate (resultOfMb len v) s := by
  rw [resultOfMb]
  split_ifs
  · exact returnDecoded_eq_resultOfDecoded v s
  · rfl

theorem le_of_mbFits {len : Byte} {b : List Byte} (h : (lenLegal len && bufferFits b) = true) :
    b.length ≤ 65535 := le_of_bufferFits ((Bool.and_eq_true _ _).mp h).2

/-- Every instruction's meaning is guarded by the one limit on its operand (R91), and within it a pure
operation only delivers its result (R60), for a Multibyte descriptor of length 0 too. -/
theorem exec_eq_encodable (i : Instr) (s : State) :
    ∃ n max t, exec i s = encodable n max t ∧ (Oversize i ↔ max < n) ∧ (i.wf = true → n ≤ max) ∧
      (isPure i = true → t = deliver .immediate (pureResult s.params i) s) := by
  cases i with
  | build _ p => exact ⟨p.length, 255, _, rfl, Iff.rfl, le_of_payloadFits, fun _ => rfl⟩
  | validate _ b => exact ⟨b.length, 65535, _, rfl, Iff.rfl, le_of_bufferFits, fun _ => rfl⟩
  | parse b =>
    exact ⟨b.length, 65535, _, rfl, Iff.rfl, le_of_bufferFits, fun _ => returnParsed_eq_pureResult b s⟩
  | decodeBit _ _ _ b | decodeByteU _ b | decodeByteS _ b | decodeByteH _ b | decodeByteA _ b | decodeNamed _ b =>
    exact ⟨b.length, 65535, _, rfl, Iff.rfl, le_of_bufferFits, fun _ => returnDecoded_eq_resultOfDecoded _ s⟩
  | decodeMbU len _ b | decodeMbS len _ b | decodeMbH len _ b | decodeMbA len _ b =>
    exact ⟨b.length, 65535, _, rfl, Iff.rfl, le_of_mbFits, fun _ => mbAnswer_eq_resultOfMb _ _ s⟩
  | decodeAll buf =>
    cases buf with
    | none => exact ⟨0, 65535, _, rfl, by simp [Oversize], fun _ => Nat.zero_le _, fun _ => rfl⟩
    | some b => exact ⟨b.length, 65535, _, rfl, Iff.rfl, le_of_bufferFits, fun _ => rfl⟩
  | execute _ _ p => exact ⟨p.length, 255, _, rfl, Iff.rfl, le_of_payloadFits, nofun⟩
  | abort | status => exact ⟨0, 0, _, rfl, by simp [Oversize], fun _ => le_rfl, nofun⟩

theorem deliver_of_exec_pure {i : Instr} {s t : State} (hp : isPure i = true) (h : exec i s = .next t) :
    t = deliver .immediate (pureResult s.params i) s := by
  obtain ⟨n, max, u, he, -, -, hpure⟩ := exec_eq_encodable i s
  rw [he] at h
  rw [← (encodable_eq_next h).1, hpure hp]

/-- Settles O21: the operand's limit decides between the refusal and a next state. -/
theorem oversizeOperandsAreRefused : Obligations.OversizeOperandsAreRefused := by
  unfold Obligations.OversizeOperandsAreRefused
  intro i s
  obtain ⟨n, max, t, he, hover, hfits, -⟩ := exec_eq_encodable i s
  rw [he, hover]
  refine ⟨fun h => ⟨if_neg fun hw => ?_, encodable_of_lt h t⟩, fun h => ⟨t, encodable_of_le (not_lt.mp h) t⟩⟩
  exact absurd (hfits hw) (not_le.mpr h)

/-- Settles O19, by `pureResult`. -/
theorem pureOperationsOnlyAnswer : Obligations.PureOperationsOnlyAnswer := by
  unfold Obligations.PureOperationsOnlyAnswer
  intro i p hp hw
  refine ⟨(pureResult p i).status, (pureResult p i).value, ?_⟩
  rintro s rfl
  exact exec_pure_answers hp hw s

/-! ### Requests written out, and Multibyte descriptors of length 0 -/

/-- Settles O43: the decoder computes each request. -/
theorem sampleRequestsDecode : Obligations.SampleRequestsDecode := by
  unfold Obligations.SampleRequestsDecode
  decide

theorem decode_family_mb_zero {kr : Nat} {r : Representation} (hkr : one kr = krByte 2 r 0) (off : Half)
    {buf : List Byte} (h : buf.length ≤ 65535) : decode (family kr off 0 buf) = .malformed := by
  rw [decode_family hkr off 0 h]
  simp [decodeVariant, legalIf, lenLegal]

theorem runMbDecode_zero {buf : List Byte} (h : buf.length ≤ 65535) (v : Option DecodedValue) (s : State) :
    runMbDecode 0 buf v s = .next (answers s .malformedRequest none) :=
  runMbDecode_of_fits (bufferFits_of_le h) 0 v s

/-- Settles O13: the decoder and the operation both test the length before anything else of a Multibyte
descriptor. -/
theorem zeroLengthMultibyteIsMalformed : Obligations.ZeroLengthMultibyteIsMalformed := by
  unfold Obligations.ZeroLengthMultibyteIsMalformed
  intro s off buf h
  simp only [List.forall_mem_cons, List.not_mem_nil, false_imp_iff, implies_true, and_true]
  exact ⟨⟨decode_family_mb_zero (r := .unsigned) (by decide) off h,
      decode_family_mb_zero (r := .signed) (by decide) off h,
      decode_family_mb_zero (r := .hex) (by decide) off h,
      decode_family_mb_zero (r := .ascii) (by decide) off h⟩,
    runMbDecode_zero h _ s, runMbDecode_zero h _ s, runMbDecode_zero h _ s, runMbDecode_zero h _ s⟩

end Sys2Proof.Cert

/-! SUPPORT and proofs for the derived properties of the frame codec (40_frame_codec.md sections 3, 4). -/

namespace Sys2Proof.Cert

open Sys2Proof.Machine

/-! ### Built frames -/

/-- A built frame validates for its own command, and where no command is expected (R104). -/
theorem validate_build {cmd : Byte} {p : List Byte} (h : p.length ≤ 255) {exp : Option Byte}
    (he : ∀ e, exp = some e → cmd = e) : validate (build cmd p) exp = true := by
  refine (validate_iff _ exp).mpr ⟨by simp, by simp [declaredLen_build h, Nat.add_comm], ?_, he⟩
  rw [declaredLen_build h, slice_build_body, byteAt_build_checksum, checksum]

theorem getLast?_build (cmd : Byte) (p : List Byte) : (build cmd p).getLast? = some (checksum cmd p) := by
  rw [build, ← List.cons_append, ← List.cons_append, List.getLast?_concat]

theorem checksum_perm (cmd : Byte) {p q : List Byte} (h : p.Perm q) : checksum cmd q = checksum cmd p := by
  rw [checksum, checksum, h.length_eq, sum8_perm (h.symm.cons _ |>.cons _)]

/-- Settles O4: the checksum is computed over the very bytes that `validate` sums up. -/
theorem builtFramesValidate : Obligations.BuiltFramesValidate := by
  unfold Obligations.BuiltFramesValidate
  intro cmd p h
  refine ⟨validate_build h (by simp), validate_build h nofun, fun q hq => ?_⟩
  rw [getLast?_build, getLast?_build, checksum_perm cmd hq]

/-! ### A changed byte -/

theorem byteAt_modify_same {l : List Byte} {i : Nat} (h : i < l.length) (f : Byte → Byte) :
    byteAt (l.modify i f) i = f (byteAt l i) := by
  simp [byteAt, List.getD_eq_getElem?_getD, h]

theorem byteAt_modify_ne {i j : Nat} (h : i ≠ j) (l : List Byte) (f : Byte → Byte) :
    byteAt (l.modify i f) j = byteAt l j := by
  simp [byteAt, List.getD_eq_getElem?_getD, List.getElem?_modify_ne f l h]

/-- Changing one byte changes the sum. -/
theorem sum8_modify_ne {l : List Byte} {i : Nat} (h : i < l.length) {f : Byte → Byte} (hf : ∀ b, f b ≠ b) :
    sum8 (l.modify i f) ≠ sum8 l := by
  obtain ⟨l₁, a, l₂, rfl, -, hm⟩ := List.exists_of_modify f h
  rw [hm, sum8_append, sum8_append, sum8_cons, sum8_cons]
  intro heq
  exact hf a ((BitVec.add_left_inj _).mp ((BitVec.add_right_inj _).mp heq))

/-- A frame that validates, with any byte but the length byte changed, up to and with its checksum, does not
validate: the checksum differs from the sum of the bytes before it. -/
theorem validate_modify {bs : List Byte} {i : Nat} {f : Byte → Byte} {exp exp' : Option Byte}
    (hv : validate bs exp = true) (hi : i < 3 + declaredLen bs) (h1 : i ≠ 1) (hf : ∀ b, f b ≠ b) :
    validate (bs.modify i f) exp' = false := by
  obtain ⟨-, hlen, hsum, -⟩ := (validate_iff _ _).mp hv
  rw [Bool.eq_false_iff]
  intro hv'
  obtain ⟨-, -, hsum', -⟩ := (validate_iff _ _).mp hv'
  have hL : declaredLen (bs.modify i f) = declaredLen bs := by rw [declaredLen, byteAt_modify_ne h1, declaredLen]
  have hslice : ∀ l : List Byte, slice l 0 (2 + declaredLen bs) = l.take (2 + declaredLen bs) := fun _ => rfl
  rw [hL, hslice, List.take_modify] at hsum'
  rw [hslice] at hsum
  by_cases hlast : i = 2 + declaredLen bs
  · rw [← hlast] at hsum hsum'
    rw [List.modify_eq_self (by simp), byteAt_modify_same (by omega), hsum] at hsum'
    exact hf _ hsum'.symm
  · rw [byteAt_modify_ne hlast, ← hsum] at hsum'
    exact sum8_modify_ne (by rw [List.length_take]; omega) hf hsum'

/-- Flipping a bit changes the byte. -/
theorem xor_one_two_pow_ne {k : Nat} (hk : k < 8) (b : Byte) : b ^^^ one (2 ^ k) ≠ b := by
  have hne : ∀ k < 8, one (2 ^ k) ≠ 0 := by decide
  intro h
  exact hne k hk ((BitVec.xor_right_inj b).mp (h.trans BitVec.xor_zero.symm))

/-- Settles O5: the flip changes the sum or the checksum, not both, and leaves the length byte. -/
theorem singleBitFlipsAreDetected : Obligations.SingleBitFlipsAreDetected := by
  unfold Obligations.SingleBitFlipsAreDetected
  intro cmd p exp i k h hi h1 hk
  refine validate_modify (validate_build (exp := none) h nofun) ?_ h1 (xor_one_two_pow_ne hk)
  rw [declaredLen_build h]
  omega

/-! ### Parsing -/

theorem parse_build {cmd : Byte} {p : List Byte} (h : p.length ≤ 255) : parse (build cmd p) = some (cmd, p) := by
  rw [parse, if_pos (validate_build (exp := none) h nofun), framePayload, declaredLen_build h, slice_build_payload,
    byteAt_build_zero]

theorem parse_ne_none_iff (bs : List Byte) : parse bs ≠ none ↔ validate bs none = true := by
  rw [parse]
  split_ifs with h <;> simp [h]

/-- Without its last byte a frame is shorter than its length byte asks for (R104 (b)). -/
theorem not_frameOk_dropLast {f : List Byte} (h : f.length = 3 + lengthByte f) : ¬ FrameOk f.dropLast := by
  rintro ⟨-, hlen, -⟩
  have hL : lengthByte f.dropLast = lengthByte f := by
    rw [lengthByte, lengthByte, List.getD_eq_getElem?_getD, List.getD_eq_getElem?_getD, List.getElem?_dropLast,
      if_pos (by omega)]
  rw [hL, List.length_dropLast] at hlen
  omega

/-- Settles O6: `parse` is guarded by `validate` alone. -/
theorem parseInvertsBuild : Obligations.ParseInvertsBuild := by
  unfold Obligations.ParseInvertsBuild
  exact ⟨fun _ _ h => parse_build h, fun _ _ h => parse_of_not_frameOk (not_frameOk_dropLast h),
    parse_ne_none_iff⟩

end Sys2Proof.Cert

/-! SUPPORT and proofs for text fields, views and longer buffers (42_calibration_decoder.md sections 4, 5). -/

namespace Sys2Proof.Cert

open Sys2Proof.Machine

/-! ### Text fields (R174, R175) -/

theorem anyHigh_eq_true_iff (y : List Byte) : anyHigh y = true ↔ ∃ b ∈ y, 0x80 ≤ b.toNat := by
  simp [anyHigh]

theorem anyHigh_eq_false_iff (y : List Byte) : anyHigh y = false ↔ ∀ b ∈ y, b.toNat < 0x80 := by
  simp [anyHigh]

theorem stripNul_subset (x : List Byte) : stripNul x ⊆ x := by
  intro b hb
  exact List.mem_reverse.mp (List.dropWhile_subset _ (List.mem_reverse.mp hb))

section
variable {ah : AsciiHigh} {off : Half} {len : Byte} {buf x : List Byte}

theorem decodeMbAscii_of_none (h : memRead buf off.toNat len.toNat = none) :
    decodeMbAscii ah off len buf = none := by
  rw [decodeMbAscii, h]

theorem decodeMbAscii_of_low (h : memRead buf off.toNat len.toNat = some x) (hlow : anyHigh (stripNul x) = false) :
    decodeMbAscii ah off len buf = some (.ascii (chars (stripNul x))) := by
  simp [decodeMbAscii, h, hlow]

theorem decodeMbAscii_of_high (h : memRead buf off.toNat len.toNat = some x) (hhigh : anyHigh (stripNul x) = true) :
    decodeMbAscii ah off len buf = asciiHighValue ah buf off.toNat len.toNat (stripNul x) := by
  simp [decodeMbAscii, h, hhigh]

/-- Under `latin1` a high byte makes no difference. -/
theorem decodeMbAscii_latin1 (h : memRead buf off.toNat len.toNat = some x) :
    decodeMbAscii .latin1 off len buf = some (.ascii (chars (stripNul x))) := by
  cases hx : anyHigh (stripNul x) with
  | false => exact decodeMbAscii_of_low h hx
  | true => exact decodeMbAscii_of_high h hx

end

theorem exec_decodeMbA {len : Byte} (hlen : len ≠ 0) {buf : List Byte} (h : buf.length ≤ 65535) (off : Half)
    (s : State) :
    exec (.decodeMbA off len buf) s = .next (optionAnswer s (decodeMbAscii s.params.asciiHigh off len buf)) :=
  runMbDecode_answers (lenLegal_of_ne_zero hlen) h _ s

/-- Settles O12, by the three choices of ASCII_HIGH on the bytes before the trailing NUL run. -/
theorem decodeMultibyteAsciiStripsNuls : Obligations.DecodeMultibyteAsciiStripsNuls := by
  unfold Obligations.DecodeMultibyteAsciiStripsNuls
  intro s off len buf hlen h
  rw [exec_decodeMbA hlen h]
  refine ⟨decode_family_mb (r := .ascii) (by decide) off hlen h, fun hout => ?_, fun y k hin hfield hy => ?_⟩
  · rw [decodeMbAscii_of_none (memRead_eq_none hout)]
    rfl
  have hread : memRead buf off.toNat len.toNat = some (y ++ List.replicate k 0) := by
    rw [memRead_eq_some hin, hfield]
  have hstrip : stripNul (y ++ List.replicate k 0) = y := stripNul_append_zeros y k hy
  refine ⟨?_, fun hhigh hah => ?_, fun hhigh hah => ⟨Config.asciiDraw buf off.toNat len.toNat, ?_⟩⟩
  · rintro (hlow | hah)
    · rw [decodeMbAscii_of_low hread (by rw [hstrip, anyHigh_eq_false_iff]; exact hlow), hstrip]
      rfl
    · rw [hah, decodeMbAscii_latin1 hread, hstrip]
      rfl
  · rw [hah, decodeMbAscii_of_high hread (by rw [hstrip, anyHigh_eq_true_iff]; exact hhigh)]
    rfl
  · rw [hah, decodeMbAscii_of_high hread (by rw [hstrip, anyHigh_eq_true_iff]; exact hhigh)]
    rfl

/-! ### Views (R179) -/

theorem memRead_nil (a : Nat) {n : Nat} (hn : n ≠ 0) : memRead [] a n = none :=
  memRead_eq_none (by rw [List.length_nil]; omega)

/-- A legal entry reads at least one byte, which an empty buffer has not (R162, R164). -/
theorem decodeField_nil (ah : AsciiHigh) {e : SchemaEntry} (hw : e.wf = true) : decodeField ah [] e = none := by
  obtain ⟨name, off, kind, repr, range, readonly⟩ := e
  cases kind with
  | bit i => rfl
  | byte => cases repr <;> rfl
  | multibyte len =>
    have hn : len.toNat ≠ 0 := (lenLegal_eq_true_iff len).mp hw
    cases repr with
    | unsigned | signed | hex => exact Option.map_eq_none_iff.mpr (memRead_nil _ hn)
    | ascii => exact decodeMbAscii_of_none (memRead_nil _ hn)

/-- A view's names are the names of some of the entries, in schema order. -/
theorem decodeView_names_sublist (p : Params) (buf : List Byte) :
    ((decodeView p buf).map Prod.fst).Sublist (p.schema.map SchemaEntry.name) := by
  rw [decodeView]
  induction p.schema with
  | nil => exact List.Sublist.slnil
  | cons e l ih =>
    cases hv : decodeField p.asciiHigh buf e with
    | none => simpa [hv] using ih.cons e.name
    | some v => simpa [hv] using ih

/-- Settles O17: an empty buffer has no byte for any entry, and a view keeps the schema's names apart. -/
theorem viewsOfLegalSchemas : Obligations.ViewsOfLegalSchemas := by
  unfold Obligations.ViewsOfLegalSchemas
  intro p buf hwf
  obtain ⟨hentries, hnodup, -⟩ := (schemaWf_iff _).mp hwf
  refine ⟨List.filterMap_eq_nil_iff.mpr fun e he => ?_, hnodup.sublist (decodeView_names_sublist p buf)⟩
  rw [decodeField_nil _ (hentries e he), Option.map_none]

/-! ### Longer buffers (R180 (b)) -/

theorem map_memRead_append {buf : List Byte} {a n : Nat} {f : List Byte → DecodedValue} {v : DecodedValue}
    (ext : List Byte) (h : (memRead buf a n).map f = some v) : (memRead (buf ++ ext) a n).map f = some v := by
  obtain ⟨x, hx, rfl⟩ := Option.map_eq_some_iff.mp h
  rw [memRead_append ext hx, Option.map_some]

theorem eq_take_drop_of_memRead {buf x : List Byte} {a n : Nat} (h : memRead buf a n = some x) :
    x = (buf.drop a).take n := by
  by_cases hin : a + n ≤ buf.length
  · rw [memRead_eq_some hin] at h
    exact (Option.some.inj h).symm
  · rw [memRead_eq_none (by omega)] at h
    cases h

/-- A text survives a longer buffer, but for a drawn one, which has a high byte in its field. -/
theorem decodeMbAscii_append {ah : AsciiHigh} {off : Half} {len : Byte} {buf : List Byte} {v : DecodedValue}
    (ext : List Byte) (h : decodeMbAscii ah off len buf = some v) :
    decodeMbAscii ah off len (buf ++ ext) = some v ∨
      ah = .draw ∧ ∃ b ∈ (buf.drop off.toNat).take len.toNat, 0x80 ≤ b.toNat := by
  cases hx : memRead buf off.toNat len.toNat with
  | none => rw [decodeMbAscii_of_none hx] at h; cases h
  | some x =>
    have hx' := memRead_append ext hx
    cases hhigh : anyHigh (stripNul x) with
    | false =>
      rw [decodeMbAscii_of_low hx hhigh] at h
      exact .inl (by rw [decodeMbAscii_of_low hx' hhigh, h])
    | true =>
      rw [decodeMbAscii_of_high hx hhigh] at h
      cases ah with
      | absent => cases h
      | latin1 => exact .inl (by rw [decodeMbAscii_of_high hx' hhigh, ← h]; rfl)
      | draw =>
        obtain ⟨b, hb, hb80⟩ := (anyHigh_eq_true_iff _).mp hhigh
        exact .inr ⟨rfl, b, eq_take_drop_of_memRead hx ▸ stripNul_subset x hb, hb80⟩

/-- Settles O18: each decode is a function of the bytes it reads, but for a drawn text. -/
theorem decodedFieldsSurviveLongerBuffers : Obligations.DecodedFieldsSurviveLongerBuffers := by
  unfold Obligations.DecodedFieldsSurviveLongerBuffers
  rintro ah buf ext ⟨name, off, kind, repr, range, readonly⟩ v h
  cases kind with
  | bit i => exact .inl (map_memRead_append ext h)
  | byte => cases repr <;> exact .inl (map_memRead_append ext h)
  | multibyte len =>
    cases repr with
    | unsigned | signed | hex => exact .inl (map_memRead_append ext h)
    | ascii => exact (decodeMbAscii_append ext h).imp_right fun ⟨hah, hb⟩ => ⟨hah, rfl, len, rfl, hb⟩

end Sys2Proof.Cert

/-! SUPPORT and proofs for the link primitives and the steps that use them (20_memory.md section 3,
41_request_sequencer.md section 2). -/

namespace Sys2Proof.Cert

open Sys2Proof.Machine

/-! ### The link primitives -/

theorem transmitStream_of_log {l m : Link} {e : LinkEvent} (h : m.log = l.log ++ [e]) :
    transmitStream m = transmitStream l ++ sentBytes e := by
  simp [transmitStream, h]

theorem linkFlush_ok {d : LinkDraw} {l m : Link} {bs : List Byte} (h : linkFlush d l = (.ok bs, m)) :
    m.rx = [] ∧ m.log = l.log ++ [.flush true] := by
  rcases linkFlush_cases d l with ⟨-, e⟩ | ⟨-, e⟩ <;> rw [e] at h <;> cases h
  exact ⟨rfl, rfl⟩

theorem linkWrite_ok {f : List Byte} {d : LinkDraw} {l m : Link} {bs : List Byte}
    (h : linkWrite f d l = (.ok bs, m)) :
    transmitStream m = transmitStream l ++ f ∧ m.rx = l.rx ++ d.arrived ∧
      m.log = l.log ++ [.write f f.length true] := by
  rcases linkWrite_cases f d l with ⟨-, e⟩ | ⟨-, e⟩ <;> rw [e] at h <;> cases h
  exact ⟨by rw [transmitStream_of_log rfl, sentBytes, List.take_length], rfl, rfl⟩

theorem linkRead_ok {n : Nat} {d : LinkDraw} {l m : Link} {bs : List Byte}
    (h : linkRead n d l = (.ok bs, m)) :
    bs = (l.rx ++ d.arrived).take (min d.count n) ∧ l.rx ++ d.arrived = bs ++ m.rx ∧ bs.length ≤ n ∧
      m.log = l.log ++ [.read n (some bs)] := by
  cases hf : linkFails d l with
  | true => rw [linkRead_of_fails n hf] at h; cases h
  | false =>
    rw [linkRead_of_ok n hf] at h
    cases h
    refine ⟨rfl, (List.take_append_drop _ _).symm, ?_, rfl⟩
    rw [List.length_take]
    omega

/-- On an open link a read may answer any bytes that LINK.RX begins with once `more` has arrived. -/
theorem exists_linkRead_ok {l : Link} {n : Nat} {bs more rest : List Byte} (hr : l.ready = true)
    (hn : bs.length ≤ n) (hrx : bs ++ rest = l.rx ++ more) : ∃ d m, linkRead n d l = (.ok bs, m) := by
  have hread := linkRead_of_ok n (d := ⟨more, true, bs.length, []⟩) (l := l) (by simp [linkFails, hr])
  rw [min_eq_left hn, ← hrx, List.take_left] at hread
  exact ⟨_, _, hread⟩

/-- Settles O38: each primitive by its two cases, and a draw for each answer that is allowed. -/
theorem linkPrimitivesKeepTheirContract : Obligations.LinkPrimitivesKeepTheirContract := by
  unfold Obligations.LinkPrimitivesKeepTheirContract
  refine ⟨fun d l => ⟨fun _ _ _ h => linkRead_ok h, fun _ _ h => linkFlush_ok h, fun _ _ _ h => linkWrite_ok h⟩,
    fun l n bs hr hn hp => ?_, fun l n f hr => ⟨?_, ?_, ⟨[], false, 0, []⟩, ?_, ?_, ?_⟩⟩
  · rcases hp with ⟨rest, hrest⟩ | ⟨more, hmore⟩
    · exact exists_linkRead_ok (more := []) hr hn (hrest.trans (List.append_nil _).symm)
    · exact exists_linkRead_ok (rest := []) hr hn ((List.append_nil _).trans hmore.symm)
  · exact ⟨⟨[], true, 0, []⟩, _, if_neg (by simp [linkFails, hr])⟩
  · exact ⟨⟨[], true, 0, []⟩, _, if_neg (by simp [linkFails, hr])⟩
  · simp [linkRead, linkFails]
  · simp [linkFlush, linkFails]
  · simp [linkWrite, linkFails]

/-! ### The steps by what the link's draw says -/

theorem sendStep_of_not_linkFails {d : LinkDraw} {s : State} (h : linkFails d s.link = false) :
    sendStep d s = { s with
      link := { s.link with
        rx := s.link.rx ++ d.arrived
        log := s.link.log ++ [.write s.seq.txFrame s.seq.txFrame.length true] }
      seq := { s.seq with writeCount := s.seq.writeCount + 1, phase := .rxHdr } } := by
  simpa [h] using sendStep_cases d s

/-- Settles O29, by the two cases of the write. -/
theorem sendStepTransmitsTheFrame : Obligations.SendStepTransmitsTheFrame := by
  unfold Obligations.SendStepTransmitsTheFrame
  intro d s hp
  rw [seqStep_of_send hp]
  refine ⟨fun h => ?_, fun h => ⟨s.link.rx ++ d.arrived, min d.count s.seq.txFrame.length, ?_, ?_⟩⟩
  · rw [sendStep_of_not_linkFails ((linkFails_eq_false_iff d s.link).mpr h)]
    exact ⟨by rw [transmitStream_of_log rfl, sentBytes, List.take_length], rfl⟩
  · exact Nat.min_le_right _ _
  · rw [sendStep_of_linkFails ((linkFails_eq_true_iff d s.link).mpr h)]
    rfl

/-- Settles O30: the read gives the first bytes of LINK.RX, and their number decides. -/
theorem headerStepReadsTwoBytes : Obligations.HeaderStepReadsTwoBytes := by
  unfold Obligations.HeaderStepReadsTwoBytes
  intro d s hp rx h rest
  rw [seqStep_of_rxHdr hp]
  refine ⟨fun hok => ?_, fun hfail => ⟨d.rxAfter, ?_⟩⟩
  · have hread := linkRead_of_ok 2 ((linkFails_eq_false_iff d s.link).mpr hok)
    exact ⟨fun hl => rxHdrStep_of_short hread hl, fun hl => rxHdrStep_of_whole hread hl.ge⟩
  · exact rxHdrStep_of_linkFails ((linkFails_eq_true_iff d s.link).mpr hfail)

/-- Settles O31: as for the header, with SEQ.BODY_LEN bytes asked for. -/
theorem bodyStepReadsTheClampedLength : Obligations.BodyStepReadsTheClampedLength := by
  unfold Obligations.BodyStepReadsTheClampedLength
  intro d s hp n rx b rest
  rw [seqStep_of_rxBody hp]
  refine ⟨fun hok => ?_, fun hfail => ⟨d.rxAfter, ?_⟩⟩
  · have hread := linkRead_of_ok n ((linkFails_eq_false_iff d s.link).mpr hok)
    exact ⟨fun hl => rxBodyStep_of_short hread hl, fun hl => rxBodyStep_of_whole hread hl.ge⟩
  · exact rxBodyStep_of_linkFails ((linkFails_eq_true_iff d s.link).mpr hfail)

end Sys2Proof.Cert

/-! SUPPORT and proofs for the moves of the sequencer (41_request_sequencer.md section 2): what a step of a busy
sequencer can do is said once, and the properties of the attempt cycle follow from it. -/

namespace Sys2Proof.Cert

open Sys2Proof.Machine

/-! ### What a step does before it goes on, starts over or ends -/

/-- The bounds of the receive registers in every phase (R29). -/
def ReceiveBounds (q : Sequencer) : Prop := q.rxHdr.length ≤ 2 ∧ q.rxBody.length ≤ 17 ∧ q.bodyLen.toNat ≤ 17

theorem receiveBounds_of_receiveAgrees {q : Sequencer} (h : receiveAgrees q) : ReceiveBounds q := by
  unfold receiveAgrees at h
  unfold ReceiveBounds
  split at h
  · exact h
  · simp [h]
  · simp [h]
  · simp [h]
  · obtain ⟨hhdr, hbody, hlen⟩ := h
    rw [hhdr, hbody, hlen]
    simp
  · obtain ⟨hhdr, hlen, hbody⟩ := h
    omega

/-- The link `l` after the one primitive of the phase of `s` (R58). -/
def Issued (s : State) (l : Link) : Prop :=
  ∃ e, primitiveOf s.seq e ∧ (receiveAgrees s.seq → LinkEventOk e) ∧ l.log = s.link.log ++ [e]

/-- The registers `q` and the link `l` after the work of a phase, before the step goes on, starts over or
ends: the request, the attempt and the payload are kept, the write is counted in SEND only (R26). -/
structure Worked (s : State) (q : Sequencer) (l : Link) : Prop where
  txFrame : q.txFrame = s.seq.txFrame
  reqCmd : q.reqCmd = s.seq.reqCmd
  maxRetries : q.maxRetries = s.seq.maxRetries
  attempt : q.attempt = s.seq.attempt
  lastStatus : q.lastStatus = s.seq.lastStatus
  respPayload : q.respPayload = s.seq.respPayload
  writeCount : q.writeCount = s.seq.writeCount + if s.seq.phase = .send then 1 else 0
  receive : receiveAgrees s.seq → ReceiveBounds q
  log : s.seq.phase = .check ∧ l.log = s.link.log ∨ Issued s l

/-- Outside SEND the work is in the receive registers and SEQ.LAST_FAIL. -/
theorem worked_of_receive {s : State} {l : Link} {hdr body : List Byte} {len : Byte} {why : FailCode}
    (hp : s.seq.phase ≠ .send)
    (hr : receiveAgrees s.seq → hdr.length ≤ 2 ∧ body.length ≤ 17 ∧ len.toNat ≤ 17)
    (hl : s.seq.phase = .check ∧ l.log = s.link.log ∨ Issued s l) :
    Worked s { s.seq with rxHdr := hdr, rxBody := body, bodyLen := len, lastFail := why } l where
  txFrame := rfl
  reqCmd := rfl
  maxRetries := rfl
  attempt := rfl
  lastStatus := rfl
  respPayload := rfl
  writeCount := by simp [hp]
  receive := hr
  log := hl

theorem worked_of_send {s : State} {l : Link} (hp : s.seq.phase = .send) (hl : Issued s l) :
    Worked s { s.seq with writeCount := s.seq.writeCount + 1 } l where
  txFrame := rfl
  reqCmd := rfl
  maxRetries := rfl
  attempt := rfl
  lastStatus := rfl
  respPayload := rfl
  writeCount := by simp [hp]
  receive := receiveBounds_of_receiveAgrees
  log := .inr hl

theorem issued_flush {s : State} (hp : s.seq.phase = .flush) (ok : Bool) (rx : List Byte) :
    Issued s { s.link with rx := rx, log := s.link.log ++ [.flush ok] } :=
  ⟨.flush ok, by rw [primitiveOf, hp]; exact ⟨ok, rfl⟩, fun _ => trivial, rfl⟩

theorem issued_write {s : State} (hp : s.seq.phase = .send) {n : Nat} (hn : n ≤ s.seq.txFrame.length) (ok : Bool)
    (rx : List Byte) : Issued s { s.link with rx := rx, log := s.link.log ++ [.write s.seq.txFrame n ok] } :=
  ⟨.write s.seq.txFrame n ok, by rw [primitiveOf, hp]; exact ⟨n, ok, rfl⟩, fun _ => hn, rfl⟩

theorem issued_readHeader {s : State} (hp : s.seq.phase = .rxHdr) {a : Option (List Byte)}
    (ha : ∀ bs, a = some bs → bs.length ≤ 2) (rx : List Byte) :
    Issued s { s.link with rx := rx, log := s.link.log ++ [.read 2 a] } :=
  ⟨.read 2 a, by rw [primitiveOf, hp]; exact ⟨a, rfl⟩, fun _ => ⟨by omega, by omega, ha⟩, rfl⟩

theorem issued_readBody {s : State} (hp : s.seq.phase = .rxBody) {a : Option (List Byte)}
    (ha : ∀ bs, a = some bs → bs.length ≤ s.seq.bodyLen.toNat) (rx : List Byte) :
    Issued s { s.link with rx := rx, log := s.link.log ++ [.read s.seq.bodyLen.toNat a] } := by
  refine ⟨.read s.seq.bodyLen.toNat a, by rw [primitiveOf, hp]; exact ⟨a, rfl⟩, fun hr => ?_, rfl⟩
  rw [receiveAgrees, hp] at hr
  obtain ⟨-, -, hlen⟩ := hr
  exact ⟨by omega, by omega, ha⟩

/-! ### The moves -/

/-- The phase that follows where the phase's work succeeds (R135, R137-R139). -/
def advances : List (Phase × Phase) :=
  [(.flush, .send), (.send, .rxHdr), (.rxHdr, .rxBody), (.rxBody, .check)]

/-- The phases in which an attempt can fail (R138, R139, R142). -/
def failing : List Phase := [.rxHdr, .rxBody, .check]

/-- The phases with a link primitive (R58). -/
def linked : List Phase := [.flush, .send, .rxHdr, .rxBody]

/-- What a step of a busy sequencer can do. -/
inductive SeqMove (s : State) : State → Prop
  /-- the phase's work succeeds -/
  | advance {q : Sequencer} {l : Link} {p : Phase} (w : Worked s q l) (hp : (s.seq.phase, p) ∈ advances)
      (hr : receiveAgrees s.seq → receiveAgrees { q with phase := p }) :
      SeqMove s { s with link := l, seq := { q with phase := p } }
  /-- the attempt fails and the next one begins -/
  | again {q : Sequencer} {l : Link} (w : Worked s q l) (hp : s.seq.phase ∈ failing)
      (ha : q.attempt.toNat ≠ q.maxRetries.toNat + 1) :
      SeqMove s { s with link := l, seq := { q with
        attempt := q.attempt + 1, rxHdr := [], rxBody := [], bodyLen := 0, phase := .flush } }
  /-- the last attempt fails -/
  | exhausted {q : Sequencer} {l : Link} (w : Worked s q l) (hp : s.seq.phase ∈ failing)
      (ha : q.attempt.toNat = q.maxRetries.toNat + 1) :
      SeqMove s (complete .retriesExhausted { s with link := l, seq := q })
  /-- a link primitive fails -/
  | fail {q : Sequencer} {l : Link} (w : Worked s q l) (hp : s.seq.phase ∈ linked) :
      SeqMove s (complete .transportFailure { s with link := l, seq := q })
  /-- the frame read is accepted -/
  | accept (hp : s.seq.phase = .check) (hv : validate (rxFrame s) (some s.seq.reqCmd) = true) :
      SeqMove s (complete .ok { s with seq := { s.seq with respPayload := framePayload (rxFrame s) } })

theorem ne_idle_of_mem_advances {a b : Phase} (h : (a, b) ∈ advances) : b ≠ .idle := by
  rintro rfl
  simp [advances] at h

theorem ne_flush_of_mem_failing {p : Phase} (h : p ∈ failing) : p ≠ .flush := by
  rintro rfl
  simp [failing] at h

theorem seqMove_of_failAttempt {s : State} {q : Sequencer} {l : Link} {why : FailCode}
    (w : Worked s { q with lastFail := why } l) (hp : s.seq.phase ∈ failing) :
    SeqMove s (failAttempt why { s with link := l, seq := q }) := by
  rw [failAttempt]
  rcases attemptStart_cases { s with link := l, seq := { q with lastFail := why } } with ⟨ha, e⟩ | ⟨ha, e⟩
  · rw [e]
    exact .exhausted w hp ha
  · rw [e]
    exact .again w hp ha

section
variable {d : LinkDraw} {s : State}

theorem flushStep_move (hp : s.seq.phase = .flush) : SeqMove s (flushStep d s) := by
  have w : ∀ ok rx, Worked s s.seq { s.link with rx := rx, log := s.link.log ++ [.flush ok] } := fun ok rx =>
    worked_of_receive (by simp [hp]) receiveBounds_of_receiveAgrees (.inr (issued_flush hp ok rx))
  rcases flushStep_cases d s with ⟨-, e⟩ | ⟨-, e⟩ <;> rw [e]
  · exact .fail (w _ _) (by simp [linked, hp])
  · refine .advance (w _ _) (by simp [advances, hp]) fun hr => ?_
    simpa [receiveAgrees, hp] using hr

theorem sendStep_move (hp : s.seq.phase = .send) : SeqMove s (sendStep d s) := by
  rcases sendStep_cases d s with ⟨-, e⟩ | ⟨-, e⟩ <;> rw [e]
  · exact .fail (worked_of_send hp (issued_write hp (Nat.min_le_right _ _) _ _)) (by simp [linked, hp])
  · refine .advance (q := { s.seq with writeCount := s.seq.writeCount + 1 })
      (worked_of_send hp (issued_write hp le_rfl _ _)) (by simp [advances, hp]) fun hr => ?_
    simpa [receiveAgrees, hp] using hr

theorem bodyLength_toNat (h : List Byte) :
    (BitVec.ofNat 8 (bodyLength h)).toNat = min (byteAt h 1).toNat 16 + 1 := by
  rw [BitVec.toNat_ofNat, bodyLength, declaredLen, Config.rxLenCeil]
  omega

theorem rxHdrStep_move (hp : s.seq.phase = .rxHdr) : SeqMove s (rxHdrStep d s) := by
  have hclear : receiveAgrees s.seq → s.seq.rxHdr = [] ∧ s.seq.rxBody = [] ∧ s.seq.bodyLen = 0 := by
    simp [receiveAgrees, hp]
  rcases rxHdrStep_cases d s with ⟨-, e⟩ | ⟨-, h, rest, hl, -, ⟨-, e⟩ | ⟨h2, e⟩⟩ <;> rw [e]
  · exact .fail (worked_of_receive (by simp [hp]) receiveBounds_of_receiveAgrees
      (.inr (issued_readHeader (a := none) hp nofun _))) (by simp [linked, hp])
  · refine seqMove_of_failAttempt (worked_of_receive (by simp [hp]) (fun hr => ?_)
      (.inr (issued_readHeader hp (by simpa using hl) _))) (by simp [failing, hp])
    exact ⟨hl, (receiveBounds_of_receiveAgrees hr).2⟩
  · refine .advance (q := { s.seq with rxHdr := h, bodyLen := BitVec.ofNat 8 (bodyLength h) })
      (worked_of_receive (by simp [hp]) (fun hr => ?_) (.inr (issued_readHeader hp (by simpa using hl) _)))
      (by simp [advances, hp]) fun hr => ?_
    · obtain ⟨-, hbody, -⟩ := hclear hr
      rw [hbody, bodyLength_toNat]
      exact ⟨hl, by simp, by omega⟩
    · obtain ⟨-, hbody, -⟩ := hclear hr
      exact ⟨h2, hbody, bodyLength_toNat h⟩

theorem rxBodyStep_move (hp : s.seq.phase = .rxBody) : SeqMove s (rxBodyStep d s) := by
  have hbounds : ∀ b : List Byte, b.length ≤ s.seq.bodyLen.toNat → receiveAgrees s.seq →
      s.seq.rxHdr.length ≤ 2 ∧ b.length ≤ 17 ∧ s.seq.bodyLen.toNat ≤ 17 := by
    intro b hb hr
    obtain ⟨hhdr, -, hlen⟩ := receiveBounds_of_receiveAgrees hr
    exact ⟨hhdr, hb.trans hlen, hlen⟩
  rcases rxBodyStep_cases d s with ⟨-, e⟩ | ⟨-, b, rest, hl, -, ⟨-, e⟩ | ⟨hn, e⟩⟩ <;> rw [e]
  · exact .fail (worked_of_receive (by simp [hp]) receiveBounds_of_receiveAgrees
      (.inr (issued_readBody (a := none) hp nofun _))) (by simp [linked, hp])
  · exact seqMove_of_failAttempt (worked_of_receive (by simp [hp]) (hbounds b hl)
      (.inr (issued_readBody hp (by simpa using hl) _))) (by simp [failing, hp])
  · refine .advance (q := { s.seq with rxBody := b })
      (worked_of_receive (by simp [hp]) (hbounds b hl) (.inr (issued_readBody hp (by simpa using hl) _)))
      (by simp [advances, hp]) fun hr => ?_
    rw [receiveAgrees, hp] at hr
    obtain ⟨hhdr, -, hlen⟩ := hr
    exact ⟨hhdr, hlen, hn⟩

theorem checkStep_move (hp : s.seq.phase = .check) : SeqMove s (checkStep s) := by
  rcases checkStep_cases s with ⟨hv, e⟩ | ⟨-, e⟩ <;> rw [e]
  · exact .accept hp hv
  · exact seqMove_of_failAttempt (q := s.seq) (l := s.link)
      (worked_of_receive (by simp [hp]) receiveBounds_of_receiveAgrees (.inl ⟨hp, rfl⟩)) (by simp [failing, hp])

theorem seqStep_of_idle (hp : s.seq.phase = .idle) : seqStep d s = s := by
  rw [seqStep, hp]

/-- Every step of a busy sequencer is one of the moves. -/
theorem seqStep_move (d : LinkDraw) (hp : s.seq.phase ≠ .idle) : SeqMove s (seqStep d s) := by
  cases h : s.seq.phase with
  | idle => exact absurd h hp
  | flush => rw [seqStep_of_flush h]; exact flushStep_move h
  | send => rw [seqStep_of_send h]; exact sendStep_move h
  | rxHdr => rw [seqStep_of_rxHdr h]; exact rxHdrStep_move h
  | rxBody => rw [seqStep_of_rxBody h]; exact rxBodyStep_move h
  | check => rw [seqStep_of_check h]; exact checkStep_move h

end

/-! ### What every move has in common -/

section
variable {s t : State}

/-- A move keeps the parameters, the pending inputs and the registers latched at acceptance (R23, R24). -/
theorem SeqMove.keeps (h : SeqMove s t) :
    t.params = s.params ∧ t.inputs = s.inputs ∧ t.seq.txFrame = s.seq.txFrame ∧
      t.seq.reqCmd = s.seq.reqCmd ∧ t.seq.maxRetries = s.seq.maxRetries := by
  cases h with
  | advance w | again w | exhausted w | fail w => exact ⟨rfl, rfl, w.txFrame, w.reqCmd, w.maxRetries⟩
  | accept => exact ⟨rfl, rfl, rfl, rfl, rfl⟩

/-- CHECK issues no link primitive, every other phase its own (R58). -/
theorem SeqMove.log (h : SeqMove s t) : s.seq.phase = .check ∧ t.link.log = s.link.log ∨ Issued s t.link := by
  cases h with
  | advance w | again w | exhausted w | fail w => exact w.log
  | accept hp => exact .inl ⟨hp, rfl⟩

/-- The statuses a sequencer step can end an EXECUTE with (R134, R136, R141). -/
def endings : List Status := [.ok, .retriesExhausted, .transportFailure]

/-- The EXECUTE goes on: nothing is delivered. -/
def GoesOn (s t : State) : Prop :=
  t.seq.phase ≠ .idle ∧ t.results = s.results ∧ t.seq.lastStatus = s.seq.lastStatus

/-- The result of an EXECUTE that ends with this status on these registers (R148). -/
def completion (st : Status) (q : Sequencer) : Result :=
  ⟨st, if st = .ok then some (.bytes q.respPayload) else none⟩

/-- The EXECUTE ends: its one result is delivered, with the status in SEQ.LAST_STATUS (R148). -/
def Ends (s t : State) : Prop :=
  t.seq.phase = .idle ∧ ∃ st ∈ endings, t.seq.lastStatus = some st ∧
    t.results = s.results ++ [⟨.execute, completion st t.seq⟩]

theorem ends_complete {m : State} {st : Status} (hst : st ∈ endings) (hm : m.results = s.results) :
    Ends s (complete st m) :=
  ⟨rfl, st, hst, rfl, by rw [complete_results, hm]; rfl⟩

theorem SeqMove.goesOn_or_ends (h : SeqMove s t) : GoesOn s t ∨ Ends s t := by
  cases h with
  | advance w hp => exact .inl ⟨ne_idle_of_mem_advances hp, rfl, w.lastStatus⟩
  | again w => exact .inl ⟨nofun, rfl, w.lastStatus⟩
  | exhausted => exact .inr (ends_complete (by decide) rfl)
  | fail => exact .inr (ends_complete (by decide) rfl)
  | accept => exact .inr (ends_complete (by decide) rfl)

end

theorem idle_mem_successors (p : Phase) : Phase.idle ∈ successors p := by cases p <;> decide

theorem SeqMove.phase_mem_successors {s t : State} (h : SeqMove s t) : t.seq.phase ∈ successors s.seq.phase := by
  cases h with
  | advance _ hp =>
    simp only [advances, List.mem_cons, Prod.mk.injEq, List.not_mem_nil, or_false] at hp
    rcases hp with ⟨hs, rfl⟩ | ⟨hs, rfl⟩ | ⟨hs, rfl⟩ | ⟨hs, rfl⟩ <;> simp [hs, successors]
  | again _ hp =>
    simp only [failing, List.mem_cons, List.not_mem_nil, or_false] at hp
    rcases hp with hs | hs | hs <;> simp [hs, successors]
  | exhausted | fail | accept => exact idle_mem_successors s.seq.phase

/-- Settles O37: the moves lead to the next phase, to the next attempt's FLUSH, or to IDLE. -/
theorem phasesFollowInOrder : Obligations.PhasesFollowInOrder := by
  unfold Obligations.PhasesFollowInOrder
  intro d s
  by_cases hidle : s.seq.phase = .idle
  · rw [seqStep_of_idle hidle]
    exact hidle ▸ idle_mem_successors s.seq.phase
  · exact (seqStep_move d hidle).phase_mem_successors

end Sys2Proof.Cert

/-! SUPPORT and proofs for what every move keeps (10_state.md section 2, 41_request_sequencer.md section 2,
properties (a) to (c) of EXECUTE). -/

namespace Sys2Proof.Cert

open Sys2Proof.Machine

/-! ### The frame read, in CHECK -/

section
variable {s : State}

theorem byteAt_append_of_lt {xs : List Byte} {i : Nat} (h : i < xs.length) (ys : List Byte) :
    byteAt (xs ++ ys) i = byteAt xs i := List.getD_append xs ys 0 i h

/-- In CHECK the frame read is as long as its header allows, at most 16 + 3 bytes (R138, R139). -/
theorem rxFrame_length (h : SeqInv s.seq) (hp : s.seq.phase = .check) :
    declaredLen (rxFrame s) = lengthByte s.seq.rxHdr ∧
      (rxFrame s).length = 3 + min (lengthByte s.seq.rxHdr) 16 := by
  have hr := h.receive
  rw [receiveAgrees, hp] at hr
  obtain ⟨hhdr, hlen, hbody⟩ := hr
  constructor
  · rw [declaredLen, rxFrame, byteAt_append_of_lt (by omega)]
    rfl
  · rw [rxFrame, List.length_append, hhdr, hbody, hlen]
    change 2 + (min (lengthByte s.seq.rxHdr) 16 + 1) = _
    omega

/-- A frame that validates holds all the bytes its header declares, so the header declares at most 16. -/
theorem lengthByte_le_of_validate {exp : Option Byte} (h : SeqInv s.seq) (hp : s.seq.phase = .check)
    (hv : validate (rxFrame s) exp = true) : lengthByte s.seq.rxHdr ≤ 16 := by
  obtain ⟨hL, hlen⟩ := rxFrame_length h hp
  obtain ⟨-, hall, -⟩ := (validate_iff _ _).mp hv
  omega

/-- An accepted frame is the built frame of the request's command and the payload returned. -/
theorem rxFrame_eq_build (h : SeqInv s.seq) (hp : s.seq.phase = .check)
    (hv : validate (rxFrame s) (some s.seq.reqCmd) = true) :
    rxFrame s = build s.seq.reqCmd (framePayload (rxFrame s)) ∧ (framePayload (rxFrame s)).length ≤ 16 := by
  have h16 := lengthByte_le_of_validate h hp hv
  obtain ⟨hL, hlen⟩ := rxFrame_length h hp
  obtain ⟨-, -, -, hcmd⟩ := (validate_iff _ _).mp hv
  constructor
  · rw [← hcmd _ rfl]
    exact eq_build_of_validate hv (by omega)
  · rw [framePayload, slice_length (by omega)]
    omega

/-- Settles O34: a frame that is shorter than its header declares does not validate. -/
theorem overlongHeadersNeverSucceed : Obligations.OverlongHeadersNeverSucceed := by
  unfold Obligations.OverlongHeadersNeverSucceed
  intro d s h hp h16
  have hv : ¬ validate (rxFrame s) (some s.seq.reqCmd) = true := fun hv =>
    absurd (lengthByte_le_of_validate h hp hv) (not_le.mpr h16)
  rw [seqStep_of_check hp, checkStep, if_neg hv]

end

/-- Settles O35: of the moves only the acceptance delivers OK. -/
theorem acceptedResponsesAreBuiltFrames : Obligations.AcceptedResponsesAreBuiltFrames := by
  unfold Obligations.AcceptedResponsesAreBuiltFrames
  intro d s p h hb hres
  have hmove := seqStep_move d hb
  generalize seqStep d s = t at hmove hres
  cases hmove with
  | advance | again => exact absurd (congrArg List.length hres) (by simp)
  | exhausted | fail => simp at hres
  | accept hp hv =>
    have hpay : framePayload (rxFrame s) = p := by simpa using hres
    obtain ⟨hbuild, hlen⟩ := rxFrame_eq_build h hp hv
    rw [hpay] at hbuild hlen
    exact ⟨hp, hlen, hbuild⟩

/-! ### Attempts and writes -/

/-- A count below its register's last value does not overflow. -/
theorem half_succ_toNat {h : Half} (hlt : h.toNat < 65535) : (h + 1).toNat = h.toNat + 1 := by
  have hone : (1 : Half).toNat = 1 := rfl
  rw [BitVec.toNat_add, hone]
  omega

section
variable {s t : State} {q : Sequencer} {l : Link}

/-- While busy, the attempt's write is counted from RX_HDR on (R26). -/
theorem attempt_eq_of_busy (h : SeqInv s.seq) (hb : s.seq.phase ≠ .idle) :
    s.seq.attempt.toNat =
        s.seq.writeCount.toNat + (if s.seq.phase ∈ [Phase.flush, .send] then 1 else 0) ∧
      1 ≤ s.seq.attempt.toNat := by
  have hc := h.counts
  unfold countsAgree at hc
  cases hp : s.seq.phase with
  | idle => exact absurd hp hb
  | flush | send => simp [hp] at hc ⊢; omega
  | rxHdr | rxBody | check => simpa [hp] using hc

theorem attempt_le_of_seqInv (h : SeqInv s.seq) : s.seq.attempt.toNat ≤ 256 := by
  have := h.attempt_le
  have := s.seq.maxRetries.isLt
  omega

/-- After the phase's work the write is counted, but in FLUSH. -/
theorem Worked.attempt_eq (w : Worked s q l) (h : SeqInv s.seq) (hb : s.seq.phase ≠ .idle) :
    q.attempt.toNat = q.writeCount.toNat + (if s.seq.phase = .flush then 1 else 0) := by
  obtain ⟨hc, -⟩ := attempt_eq_of_busy h hb
  have hle := attempt_le_of_seqInv h
  rw [w.attempt, w.writeCount]
  cases hp : s.seq.phase with
  | send =>
    simp only [hp, List.mem_cons, true_or, or_true, if_true] at hc
    rw [if_pos rfl, half_succ_toNat (by omega), hc]
    rfl
  | idle | flush | rxHdr | rxBody | check => simpa [hp] using hc

theorem Worked.attempt_le (w : Worked s q l) (h : SeqInv s.seq) : q.attempt.toNat ≤ q.maxRetries.toNat + 1 := by
  rw [w.attempt, w.maxRetries]
  exact h.attempt_le

/-- The next attempt's number does not overflow the register (R25). -/
theorem Worked.attempt_succ (w : Worked s q l) (h : SeqInv s.seq)
    (ha : q.attempt.toNat ≠ q.maxRetries.toNat + 1) :
    (q.attempt + 1).toNat = q.attempt.toNat + 1 ∧ q.attempt.toNat + 1 ≤ q.maxRetries.toNat + 1 := by
  have hle := w.attempt_le h
  have hlt := q.maxRetries.isLt
  exact ⟨half_succ_toNat (by omega), by omega⟩

/-- While busy, the payload register is empty and the frame is the request's, after the work too. -/
theorem Worked.payload_frame (w : Worked s q l) (h : SeqInv s.seq) (hb : s.seq.phase ≠ .idle) :
    q.respPayload = [] ∧ ∃ p, p.length ≤ 255 ∧ q.txFrame = build q.reqCmd p := by
  rw [w.respPayload, w.txFrame, w.reqCmd]
  exact ⟨h.payload_busy hb, h.frame hb⟩

/-! ### Legal registers -/

/-- Registers within their bounds are legal ones of an idle sequencer. -/
theorem seqInv_of_bounds (hle : q.attempt.toNat ≤ q.maxRetries.toNat + 1)
    (hc : q.writeCount.toNat ≤ q.attempt.toNat ∧ q.attempt.toNat ≤ q.writeCount.toNat + 1)
    (hr : ReceiveBounds q) (hp : q.respPayload.length ≤ 16) (st : Option Status) :
    SeqInv { q with lastStatus := st, phase := .idle } where
  attempt_le := hle
  counts := hc
  receive := hr
  payload := hp
  payload_busy := fun hb => absurd rfl hb
  frame := fun hb => absurd rfl hb

theorem seqInv_reset : SeqInv Sequencer.reset :=
  seqInv_of_bounds (q := Sequencer.reset) (by decide) (by decide) (by simp [ReceiveBounds, Sequencer.reset])
    (by decide) none

/-- Registers of a request in progress are legal where the counts and the receive registers fit the phase. -/
theorem seqInv_busy {p : Phase} (hle : q.attempt.toNat ≤ q.maxRetries.toNat + 1)
    (hpf : q.respPayload = [] ∧ ∃ p, p.length ≤ 255 ∧ q.txFrame = build q.reqCmd p)
    (hc : countsAgree { q with phase := p }) (hr : receiveAgrees { q with phase := p }) :
    SeqInv { q with phase := p } where
  attempt_le := hle
  counts := hc
  receive := hr
  payload := by
    change q.respPayload.length ≤ 16
    rw [hpf.1]
    decide
  payload_busy := fun _ => hpf.1
  frame := fun _ => hpf.2

/-- Where the EXECUTE ends after the work, the registers are legal. -/
theorem Worked.seqInv_idle (w : Worked s q l) (h : SeqInv s.seq) (hb : s.seq.phase ≠ .idle)
    (st : Option Status) : SeqInv { q with lastStatus := st, phase := .idle } := by
  have hc := w.attempt_eq h hb
  refine seqInv_of_bounds (w.attempt_le h) (by split at hc <;> omega) (w.receive h.receive) ?_ st
  rw [w.respPayload]
  exact h.payload

/-- Where the EXECUTE ends with this payload on the registers as they are, they are legal. -/
theorem seqInv_ended (h : SeqInv s.seq) (hb : s.seq.phase ≠ .idle) {p : List Byte} (hp : p.length ≤ 16)
    (st : Option Status) : SeqInv { s.seq with respPayload := p, lastStatus := st, phase := .idle } := by
  obtain ⟨hc, -⟩ := attempt_eq_of_busy h hb
  have hwrites : s.seq.writeCount.toNat ≤ s.seq.attempt.toNat ∧
      s.seq.attempt.toNat ≤ s.seq.writeCount.toNat + 1 := by split at hc <;> omega
  exact seqInv_of_bounds (q := { s.seq with respPayload := p }) h.attempt_le hwrites
    (receiveBounds_of_receiveAgrees h.receive) hp st

/-- Every move keeps the registers legal. -/
theorem SeqMove.seqInv (hm : SeqMove s t) (h : SeqInv s.seq) (hb : s.seq.phase ≠ .idle) : SeqInv t.seq := by
  cases hm with
  | @advance q l p w hp hr =>
    refine seqInv_busy (w.attempt_le h) (w.payload_frame h hb) ?_ (hr h.receive)
    have hc := w.attempt_eq h hb
    obtain ⟨-, hone⟩ := attempt_eq_of_busy h hb
    rw [← w.attempt] at hone
    simp only [advances, List.mem_cons, Prod.mk.injEq, List.not_mem_nil, or_false] at hp
    rcases hp with ⟨hs, rfl⟩ | ⟨hs, rfl⟩ | ⟨hs, rfl⟩ | ⟨hs, rfl⟩
    · exact hc.trans (by rw [if_pos hs])
    all_goals
      simp only [hs, reduceCtorEq, if_false] at hc
      exact ⟨hc, hone⟩
  | @again q l w hp ha =>
    obtain ⟨hsucc, hle⟩ := w.attempt_succ h ha
    have hc := w.attempt_eq h hb
    rw [if_neg (ne_flush_of_mem_failing hp)] at hc
    exact seqInv_busy (q := { q with attempt := q.attempt + 1, rxHdr := [], rxBody := [], bodyLen := 0 })
      (hsucc.trans_le hle) (w.payload_frame h hb) (hsucc.trans (congrArg (· + 1) hc)) ⟨rfl, rfl, rfl⟩
  | exhausted w | fail w => exact w.seqInv_idle h hb _
  | accept hp hv => exact seqInv_ended h hb (rxFrame_eq_build h hp hv).2 _

/-! ### The counts at a completion (R143 (c)) -/

/-- Outside FLUSH the attempt's write is counted after the phase's work. -/
theorem Worked.writeCount_eq (w : Worked s q l) (h : SeqInv s.seq) (hb : s.seq.phase ≠ .idle)
    (hp : s.seq.phase ≠ .flush) : q.writeCount = q.attempt := by
  have hc := w.attempt_eq h hb
  rw [if_neg hp] at hc
  exact (BitVec.eq_of_toNat_eq hc).symm

/-- Before the write the attempt is one ahead of the writes, and after it as many. -/
theorem writeCount_of_busy (h : SeqInv s.seq) (hb : s.seq.phase ≠ .idle) :
    (s.seq.phase ∈ [Phase.flush, .send] → s.seq.attempt.toNat = s.seq.writeCount.toNat + 1) ∧
    (s.seq.phase ∉ [Phase.flush, .send] → s.seq.writeCount = s.seq.attempt) := by
  obtain ⟨hc, -⟩ := attempt_eq_of_busy h hb
  exact ⟨fun hp => by rwa [if_pos hp] at hc, fun hp => (BitVec.eq_of_toNat_eq (by rwa [if_neg hp] at hc)).symm⟩

theorem SeqMove.counts (hm : SeqMove s t) (h : SeqInv s.seq) (hb : s.seq.phase ≠ .idle)
    (hidle : t.seq.phase = .idle) :
    t.seq.lastStatus = some .ok ∧ t.seq.writeCount = t.seq.attempt ∨
    t.seq.lastStatus = some .retriesExhausted ∧ t.seq.writeCount = t.seq.attempt ∧
      t.seq.attempt.toNat = t.seq.maxRetries.toNat + 1 ∨
    t.seq.lastStatus = some .transportFailure ∧ s.seq.phase = .flush ∧
      t.seq.attempt.toNat = t.seq.writeCount.toNat + 1 ∨
    t.seq.lastStatus = some .transportFailure ∧ s.seq.phase ≠ .flush ∧ t.seq.writeCount = t.seq.attempt := by
  cases hm with
  | advance w hp => exact absurd hidle (ne_idle_of_mem_advances hp)
  | again => cases hidle
  | exhausted w hp ha => exact .inr (.inl ⟨rfl, w.writeCount_eq h hb (ne_flush_of_mem_failing hp), ha⟩)
  | fail w hp =>
    by_cases hflush : s.seq.phase = .flush
    · have hc := w.attempt_eq h hb
      rw [if_pos hflush] at hc
      exact .inr (.inr (.inl ⟨rfl, hflush, hc⟩))
    · exact .inr (.inr (.inr ⟨rfl, hflush, w.writeCount_eq h hb hflush⟩))
  | accept hp => exact .inl ⟨rfl, (writeCount_of_busy h hb).2 (by simp [hp])⟩

end

theorem abortRequest_seq_of_busy {s : State} (hb : s.seq.phase ≠ .idle) :
    (abortRequest s).seq = { s.seq with lastStatus := some .aborted, phase := .idle } := by
  rw [abortRequest, if_pos ((busy_eq_true_iff s).mpr hb)]
  rfl

/-- Settles O36: the write of an attempt is counted in its SEND step, whatever ends the EXECUTE. -/
theorem countsAtCompletion : Obligations.CountsAtCompletion := by
  unfold Obligations.CountsAtCompletion
  intro d s h hb
  have hmove := seqStep_move d hb
  refine ⟨fun hidle => ⟨(hmove.seqInv h hb).attempt_le, hmove.counts h hb hidle⟩, ?_⟩
  rw [abortRequest_seq_of_busy hb]
  exact ⟨rfl, writeCount_of_busy h hb⟩

end Sys2Proof.Cert

/-! SUPPORT and proofs for the steps of the block (20_memory.md section 4): what one step can do is said once, and
the properties of every step follow from it. -/

namespace Sys2Proof.Cert

open Sys2Proof.Machine

/-! ### The step on each input -/

theorem acceptRequest_of_instr {r : List Byte} {i : Instr} (h : decode r = .instr i) (s : State) :
    acceptRequest r s = exec i s := by
  rw [acceptRequest, h]

section
variable {s : State} {rest : List Event}

theorem step_of_block {d : LinkDraw} (h : s.inputs = .block d :: rest) :
    step s = .next (seqStep d { s with inputs := rest }) := by
  rw [step, takeInput, h]

theorem step_of_arrive {bs : List Byte} (h : s.inputs = .arrive bs :: rest) :
    step s = .next { s with inputs := rest, link := { s.link with rx := s.link.rx ++ bs } } := by
  rw [step, takeInput, h]
  rfl

theorem step_of_linkReady {b : Bool} (h : s.inputs = .linkReady b :: rest) :
    step s = .next { s with inputs := rest, link := { s.link with ready := b } } := by
  rw [step, takeInput, h]

theorem step_of_nil_idle (h : s.inputs = []) (hp : s.seq.phase = .idle) : step s = .next s := by
  rw [step, takeInput, h]
  simp [runSequencer, busy, hp]

theorem step_of_nil_busy (h : s.inputs = []) (hp : s.seq.phase ≠ .idle) :
    step s = .next (seqStep (Config.linkDraw s.params.linkId s.drawCount)
      { s with drawCount := s.drawCount + 1 }) := by
  simp [step, takeInput, h, runSequencer, busy, hp]

end

/-- Settles O45: a legal request is run by `exec`. -/
theorem stepRunsTheDecodedRequest : Obligations.StepRunsTheDecodedRequest := by
  unfold Obligations.StepRunsTheDecodedRequest
  intro s r rest i hs hd
  rw [step_of_request hs, acceptRequest_of_instr hd]

/-- Settles O46, input by input. -/
theorem stepsOfTheOtherAgents : Obligations.StepsOfTheOtherAgents := by
  unfold Obligations.StepsOfTheOtherAgents
  exact fun s rest => ⟨fun _ => step_of_block, fun _ => step_of_arrive, fun _ => step_of_linkReady,
    step_of_nil_idle, fun h hp => ⟨_, step_of_nil_busy h hp⟩⟩

theorem acceptRequest_completes (r : List Byte) (s : State) : ∃ t, acceptRequest r s = .next t := by
  cases hd : decode r with
  | instr i =>
    rw [acceptRequest_of_instr hd]
    exact exec_completes (wf_of_decode hd) s
  | illegal => exact ⟨_, acceptRequest_of_illegal hd s⟩
  | malformed => exact ⟨_, acceptRequest_of_malformed hd s⟩

/-- Settles O47: a request that decodes is well-formed, so its instruction completes. -/
theorem everyStepCompletes : Obligations.EveryStepCompletes := by
  unfold Obligations.EveryStepCompletes
  intro s
  cases h : s.inputs with
  | nil =>
    by_cases hp : s.seq.phase = .idle
    · exact ⟨_, step_of_nil_idle h hp⟩
    · exact ⟨_, step_of_nil_busy h hp⟩
  | cons e rest =>
    cases e with
    | request r =>
      rw [step_of_request h]
      exact acceptRequest_completes r _
    | block d => exact ⟨_, step_of_block h⟩
    | arrive bs => exact ⟨_, step_of_arrive h⟩
    | linkReady b => exact ⟨_, step_of_linkReady h⟩
    | reset => exact ⟨_, step_of_reset h⟩

/-! ### The moves of a step -/

/-- The state without its next input, and with this number of draws taken. -/
def taken (s : State) (n : Nat) : State := { s with inputs := s.inputs.tail, drawCount := n }

@[simp] theorem taken_params (s : State) (n : Nat) : (taken s n).params = s.params := rfl
@[simp] theorem taken_seq (s : State) (n : Nat) : (taken s n).seq = s.seq := rfl
@[simp] theorem taken_link (s : State) (n : Nat) : (taken s n).link = s.link := rfl
@[simp] theorem taken_results (s : State) (n : Nat) : (taken s n).results = s.results := rfl
@[simp] theorem taken_inputs (s : State) (n : Nat) : (taken s n).inputs = s.inputs.tail := rfl

theorem taken_of_cons {s : State} {e : Event} {rest : List Event} (h : s.inputs = e :: rest) :
    { s with inputs := rest } = taken s s.drawCount := by
  rw [taken, h, List.tail_cons]

theorem taken_of_cons_link {s : State} {e : Event} {rest : List Event} (h : s.inputs = e :: rest) (l : Link) :
    { s with inputs := rest, link := l } = { taken s s.drawCount with link := l } := by
  rw [← taken_of_cons h]

theorem taken_of_nil {s : State} (h : s.inputs = []) (n : Nat) : { s with drawCount := n } = taken s n := by
  rw [taken, h, List.tail_nil, ← h]

/-- The next input is a request for this instruction. -/
def Requests (s : State) (i : Instr) : Prop :=
  ∃ r rest, s.inputs = .request r :: rest ∧ decode r = .instr i

/-- What a step can do. -/
inductive Move (s : State) : State → Prop
  /-- the sequencer's step -/
  | sequencer {d : LinkDraw} {n : Nat} (h : s.inputs = [] ∨ ∃ d rest, s.inputs = .block d :: rest) :
      Move s (seqStep d (taken s n))
  /-- the link's or the collaborator's step, which issues nothing -/
  | link {l : Link} {n : Nat} (hl : l.log = s.link.log) : Move s { taken s n with link := l }
  | reset {n : Nat} (h : ∃ rest, s.inputs = .reset :: rest) : Move s (applyReset (taken s n))
  /-- a request is answered at once, and a status other than OK carries no value (R201) -/
  | answer {r : Result} {n : Nat} (hr : r.status ≠ .ok → r.value = none) :
      Move s (deliver .immediate r (taken s n))
  /-- an EXECUTE is latched and ends at once (R133) -/
  | turnedAway {cmd ret : Byte} {p : List Byte} {n : Nat} (h : Requests s (.execute cmd ret p))
      (hp : s.seq.phase = .idle) : Move s (complete .preconditionViolation (latch cmd ret (taken s n)))
  /-- an EXECUTE is latched and its first attempt starts (R132) -/
  | accepted {cmd ret : Byte} {p : List Byte} {n : Nat} (h : Requests s (.execute cmd ret p))
      (hlen : p.length ≤ 255) (hp : s.seq.phase = .idle) :
      Move s { taken s n with seq := { (latch cmd ret s).seq with
        txFrame := build cmd p, attempt := 1, phase := .flush } }
  /-- an ABORT ends the EXECUTE in progress (R144) -/
  | aborted {n : Nat} (h : Requests s .abort) (hb : s.seq.phase ≠ .idle) :
      Move s (deliver .immediate ⟨.ok, none⟩ (complete .aborted (taken s n)))

/-- A pure operation's result carries no value beside a status other than OK (R201). -/
theorem pureResult_value (p : Params) (i : Instr) (h : (pureResult p i).status ≠ .ok) :
    (pureResult p i).value = none := by
  have hdecoded : ∀ v, (resultOfDecoded v).status ≠ .ok → (resultOfDecoded v).value = none := by
    rintro (_ | v) hv
    · rfl
    · exact absurd rfl hv
  have hmb : ∀ len v, (resultOfMb len v).status ≠ .ok → (resultOfMb len v).value = none := by
    intro len v
    rw [resultOfMb]
    split_ifs
    · exact hdecoded v
    · exact fun _ => rfl
  cases i with
  | build | validate | decodeAll | execute | abort | status => exact absurd rfl h
  | parse bs =>
    rw [pureResult] at h ⊢
    split at h
    · exact absurd rfl h
    · simp_all
  | decodeBit | decodeByteU | decodeByteS | decodeByteH | decodeByteA | decodeNamed => exact hdecoded _ h
  | decodeMbU | decodeMbS | decodeMbH | decodeMbA => exact hmb _ _ h

section
variable {s t : State} {n : Nat}

theorem acceptExecute_move {cmd ret : Byte} {p : List Byte} (h : Requests s (.execute cmd ret p))
    (hlen : p.length ≤ 255) : Move s (acceptExecute cmd ret p (taken s n)) := by
  by_cases hb : s.seq.phase = .idle
  · have hi : busy (taken s n) = false := (busy_eq_false_iff _).mpr hb
    by_cases hc : cmd = (taken s n).params.cmdConfigWrite ∧ p.length ≠ 13
    · rw [acceptExecute_of_precondition hi hc]
      exact .turnedAway h hb
    · rw [acceptExecute_of_accepted hi hc]
      exact .accepted h hlen hb
  · rw [acceptExecute_of_busy ((busy_eq_true_iff (taken s n)).mpr hb)]
    exact .answer (r := ⟨.busy, none⟩) fun _ => rfl

theorem abortRequest_move (h : Requests s .abort) : Move s (abortRequest (taken s n)) := by
  by_cases hb : s.seq.phase = .idle
  · rw [abortRequest, (busy_eq_false_iff (taken s n)).mpr hb, if_neg nofun]
    exact .answer (r := ⟨.ok, none⟩) fun _ => rfl
  · rw [abortRequest, if_pos ((busy_eq_true_iff (taken s n)).mpr hb)]
    exact .aborted h hb

theorem exec_move {i : Instr} (hreq : Requests s i) (h : exec i (taken s n) = .next t) : Move s t := by
  obtain ⟨r, rest, hs, hd⟩ := hreq
  have hw := wf_of_decode hd
  cases hp : isPure i with
  | true =>
    rw [deliver_of_exec_pure hp h]
    exact .answer (pureResult_value _ i)
  | false =>
    cases i with
    | execute cmd ret p =>
      have hlen := le_of_payloadFits hw
      rw [exec_execute cmd ret hlen] at h
      cases h
      exact acceptExecute_move ⟨r, rest, hs, hd⟩ hlen
    | abort =>
      cases h
      exact abortRequest_move ⟨r, rest, hs, hd⟩
    | status =>
      cases h
      exact .answer fun hne => absurd rfl hne
    | build | validate | parse | decodeBit | decodeByteU | decodeByteS | decodeByteH | decodeByteA | decodeMbU
    | decodeMbS | decodeMbH | decodeMbA | decodeNamed | decodeAll => cases hp

theorem acceptRequest_move {r : List Byte} {rest : List Event} (hs : s.inputs = .request r :: rest)
    (h : acceptRequest r (taken s n) = .next t) : Move s t := by
  cases hd : decode r with
  | instr i =>
    rw [acceptRequest_of_instr hd] at h
    exact exec_move ⟨r, rest, hs, hd⟩ h
  | illegal =>
    rw [acceptRequest_of_illegal hd] at h
    cases h
    exact .answer (r := ⟨.illegalOperation, none⟩) fun _ => rfl
  | malformed =>
    rw [acceptRequest_of_malformed hd] at h
    cases h
    exact .answer (r := ⟨.malformedRequest, none⟩) fun _ => rfl

/-- Every step is one of the moves. -/
theorem step_move (h : step s = .next t) : Move s t := by
  cases hs : s.inputs with
  | nil =>
    by_cases hp : s.seq.phase = .idle
    · rw [step_of_nil_idle hs hp] at h
      cases h
      have hstay : seqStep default (taken s s.drawCount) = s := by
        rw [seqStep_of_idle (s := taken s s.drawCount) hp, ← taken_of_nil hs]
      have hmove := Move.sequencer (d := default) (n := s.drawCount) (.inl hs)
      rwa [hstay] at hmove
    · rw [step_of_nil_busy hs hp, taken_of_nil hs] at h
      cases h
      exact .sequencer (.inl hs)
  | cons e rest =>
    cases e with
    | request r =>
      rw [step_of_request hs, taken_of_cons hs] at h
      exact acceptRequest_move hs h
    | block d =>
      rw [step_of_block hs, taken_of_cons hs] at h
      cases h
      exact .sequencer (.inr ⟨d, rest, hs⟩)
    | arrive bs =>
      rw [step_of_arrive hs, taken_of_cons_link hs] at h
      cases h
      exact .link rfl
    | linkReady b =>
      rw [step_of_linkReady hs, taken_of_cons_link hs] at h
      cases h
      exact .link rfl
    | reset =>
      rw [step_of_reset hs, taken_of_cons hs] at h
      cases h
      exact .reset ⟨rest, hs⟩

end

end Sys2Proof.Cert

/-! SUPPORT and proofs for what every step keeps (10_state.md sections 2, 3, 5 and 20_memory.md section 4). -/

namespace Sys2Proof.Cert

open Sys2Proof.Machine

section
variable {s t : State}

/-- A sequencer step on the taken state: the sequencer is idle and nothing happens, or it is a move. -/
theorem seqStep_taken (s : State) (d : LinkDraw) (n : Nat) :
    s.seq.phase = .idle ∧ seqStep d (taken s n) = taken s n ∨
      s.seq.phase ≠ .idle ∧ SeqMove (taken s n) (seqStep d (taken s n)) := by
  by_cases hp : s.seq.phase = .idle
  · exact .inl ⟨hp, seqStep_of_idle (s := taken s n) hp⟩
  · exact .inr ⟨hp, seqStep_move (s := taken s n) d hp⟩

/-! ### Parameters -/

theorem Move.params_eq (hm : Move s t) : t.params = s.params := by
  cases hm with
  | @sequencer d n h =>
    rcases seqStep_taken s d n with ⟨-, e⟩ | ⟨-, hm⟩
    · rw [e, taken_params]
    · exact hm.keeps.1
  | link | reset | answer | turnedAway | accepted | aborted => rfl

/-! ### The registers -/

theorem Move.writer_of_seq_ne (hm : Move s t) (hne : t.seq ≠ s.seq) :
    (busy s = true ∧ (s.inputs = [] ∨ ∃ d rest, s.inputs = .block d :: rest)) ∨
    (∃ cmd ret p, Requests s (.execute cmd ret p)) ∨ Requests s .abort ∨ ∃ rest, s.inputs = .reset :: rest := by
  cases hm with
  | @sequencer d n h =>
    rcases seqStep_taken s d n with ⟨-, e⟩ | ⟨hb, -⟩
    · exact absurd (by rw [e, taken_seq]) hne
    · exact .inl ⟨(busy_eq_true_iff s).mpr hb, h⟩
  | link | answer => exact absurd rfl hne
  | reset h => exact .inr (.inr (.inr h))
  | turnedAway h | accepted h => exact .inr (.inl ⟨_, _, _, h⟩)
  | aborted h => exact .inr (.inr (.inl h))

theorem Move.latched (hm : Move s t) :
    (t.seq.txFrame = s.seq.txFrame ∧ t.seq.reqCmd = s.seq.reqCmd ∧ t.seq.maxRetries = s.seq.maxRetries) ∨
    (∃ rest, s.inputs = .reset :: rest) ∨
    (s.seq.phase = .idle ∧ ∃ cmd ret p, Requests s (.execute cmd ret p) ∧
      t.seq.reqCmd = cmd ∧ t.seq.maxRetries = ret) := by
  cases hm with
  | @sequencer d n h =>
    rcases seqStep_taken s d n with ⟨-, e⟩ | ⟨-, hm⟩
    · rw [e]
      exact .inl ⟨rfl, rfl, rfl⟩
    · obtain ⟨-, -, hlatched⟩ := hm.keeps
      exact .inl hlatched
  | link | answer | aborted => exact .inl ⟨rfl, rfl, rfl⟩
  | reset h => exact .inr (.inl h)
  | turnedAway h hp | accepted h _ hp => exact .inr (.inr ⟨hp, _, _, _, h, rfl, rfl⟩)

theorem Move.lastStatus_eq (hm : Move s t) (hb : busy t = true) : t.seq.lastStatus = s.seq.lastStatus := by
  rw [busy_eq_true_iff] at hb
  cases hm with
  | @sequencer d n h =>
    rcases seqStep_taken s d n with ⟨-, e⟩ | ⟨-, hm⟩
    · rw [e, taken_seq]
    · rcases hm.goesOn_or_ends with ⟨-, -, hlast⟩ | ⟨hidle, -⟩
      · exact hlast
      · exact absurd hidle hb
  | link | answer | accepted => rfl
  | reset | turnedAway | aborted => exact absurd rfl hb

/-! ### Link primitives -/

theorem Move.log (hm : Move s t) : t.link.log = s.link.log ∨ s.seq.phase ≠ .idle ∧ Issued s t.link := by
  cases hm with
  | @sequencer d n h =>
    rcases seqStep_taken s d n with ⟨-, e⟩ | ⟨hb, hm⟩
    · exact .inl (by rw [e, taken_link])
    · exact hm.log.imp (fun ⟨_, hlog⟩ => hlog) fun hissued => ⟨hb, hissued⟩
  | link hl => exact .inl hl
  | reset | answer | turnedAway | accepted | aborted => exact .inl rfl

/-! ### Results -/

/-- Every delivery for the EXECUTE in progress is its end, with its status in SEQ.LAST_STATUS (R148). -/
def Announces (ds : List Delivery) (t : State) : Prop :=
  ∀ d ∈ ds, d.port = .execute → busy t = false ∧ t.seq.lastStatus = some d.result.status

theorem Move.results (hm : Move s t) :
    ∃ ds, t.results = s.results ++ ds ∧ ds.length ≤ 2 ∧ Announces ds t ∧
      ((∀ rest, s.inputs ≠ .reset :: rest) → busy s = true → busy t = false →
        (ds.filter fun d => d.port = .execute).length = 1) := by
  cases hm with
  | @sequencer d n h =>
    rcases seqStep_taken s d n with ⟨hidle, e⟩ | ⟨hb, hm⟩
    · rw [e]
      refine ⟨[], by simp, by simp, nofun, fun _ hb => ?_⟩
      exact absurd hidle ((busy_eq_true_iff s).mp hb)
    · rcases hm.goesOn_or_ends with ⟨hbusy, hres, -⟩ | ⟨hidle, st, -, hlast, hres⟩
      · refine ⟨[], by rw [hres, taken_results, List.append_nil], by simp, nofun, fun _ _ hidle => ?_⟩
        exact absurd ((busy_eq_false_iff _).mp hidle) hbusy
      · refine ⟨_, hres, by simp, fun d hd _ => ?_, fun _ _ _ => rfl⟩
        rw [List.mem_singleton.mp hd]
        exact ⟨(busy_eq_false_iff _).mpr hidle, hlast⟩
  | link =>
    refine ⟨[], by simp, by simp, nofun, fun _ hb hidle => ?_⟩
    exact absurd (hb.symm.trans hidle) nofun
  | reset h =>
    obtain ⟨rest, hs⟩ := h
    exact ⟨[], by simp, by simp, nofun, fun hno => absurd hs (hno rest)⟩
  | @answer r n hr =>
    refine ⟨[⟨.immediate, r⟩], rfl, by simp, ?_, fun _ hb hidle => absurd (hb.symm.trans hidle) nofun⟩
    simp [Announces]
  | turnedAway h hp =>
    refine ⟨_, rfl, by simp, ?_, fun _ _ _ => rfl⟩
    simp [Announces, busy]
  | accepted h hlen hp =>
    exact ⟨[], by simp, by simp, nofun, fun _ hb => absurd hp ((busy_eq_true_iff s).mp hb)⟩
  | aborted h hb =>
    refine ⟨[⟨.execute, ⟨.aborted, none⟩⟩, ⟨.immediate, ⟨.ok, none⟩⟩], by simp, by simp, ?_, fun _ _ _ => rfl⟩
    simp [Announces, busy]

end

/-! ### The statements -/

/-- Settles O48: no move writes the parameters. -/
theorem parametersNeverChange : Obligations.ParametersNeverChange := by
  unfold Obligations.ParametersNeverChange
  exact fun s t h => (step_move h).params_eq

/-- Settles O49, move by move. -/
theorem onlyTheSequencerWritesItsRegisters : Obligations.OnlyTheSequencerWritesItsRegisters := by
  unfold Obligations.OnlyTheSequencerWritesItsRegisters
  intro s t h hne
  rcases (step_move h).writer_of_seq_ne hne with hseq | ⟨cmd, ret, p, r, rest, hs, hd⟩ | habort | hreset
  · exact .inl hseq
  · exact .inr (.inl ⟨r, rest, cmd, ret, p, hs, hd⟩)
  · exact .inr (.inr (.inl habort))
  · exact .inr (.inr (.inr hreset))

/-- Settles O50: the registers are written by `latch`, with the frame, and by reset alone. -/
theorem latchedRegistersChangeAtAcceptance : Obligations.LatchedRegistersChangeAtAcceptance := by
  unfold Obligations.LatchedRegistersChangeAtAcceptance
  intro s t h hne
  rcases (step_move h).latched with ⟨htx, hcmd, hret⟩ | hreset | ⟨hp, cmd, ret, p, ⟨r, rest, hs, hd⟩, hwritten⟩
  · exact absurd hne (by simp [htx, hcmd, hret])
  · exact .inl hreset
  · exact .inr ⟨hp, r, rest, cmd, ret, p, hs, hd, hwritten⟩

/-- Settles O51: SEQ.LAST_STATUS is written where SEQ.PHASE becomes IDLE. -/
theorem lastStatusIsKeptWhileBusy : Obligations.LastStatusIsKeptWhileBusy := by
  unfold Obligations.LastStatusIsKeptWhileBusy
  exact fun s t h hb => (step_move h).lastStatus_eq hb

/-- Settles O52: only the sequencer issues a primitive, the one of its phase. -/
theorem atMostOneLinkPrimitivePerStep : Obligations.AtMostOneLinkPrimitivePerStep := by
  unfold Obligations.AtMostOneLinkPrimitivePerStep
  intro s t h
  exact (step_move h).log.imp_right fun ⟨_, e, he, _, hlog⟩ => ⟨e, he, hlog⟩

/-- Settles O53, by what each move delivers. -/
theorem resultsAreDeliveredInOrder : Obligations.ResultsAreDeliveredInOrder := by
  unfold Obligations.ResultsAreDeliveredInOrder
  exact fun s t h => (step_move h).results

/-- Settles O59: the stepped state replaces the one on its link, and its SCHEMA is the old one. -/
theorem instancesDoNotInterfere : Obligations.InstancesDoNotInterfere := by
  unfold Obligations.InstancesDoNotInterfere
  intro y z k h
  rw [System.stepAt] at h
  split at h
  · cases h
  next s hs =>
  split at h
  next t ht =>
    cases h
    refine ⟨fun j hj => List.getElem?_set_ne hj.symm, fun hshare => ?_, List.length_set⟩
    have hschema : ∀ a ∈ y.instances.set k t, ∃ b ∈ y.instances, a.params.schema = b.params.schema := by
      intro a ha
      rcases List.mem_or_eq_of_mem_set ha with ha | rfl
      · exact ⟨a, ha, rfl⟩
      · exact ⟨s, List.mem_of_getElem? hs, by rw [(step_move ht).params_eq]⟩
    intro a ha b hb
    obtain ⟨a', ha', ea⟩ := hschema a ha
    obtain ⟨b', hb', eb⟩ := hschema b hb
    rw [ea, eb, hshare a' ha' b' hb']
  · cases h
  · cases h

/-! ### The invariant -/

theorem resultOk_completion {st : Status} {q : Sequencer} (h : q.respPayload.length ≤ 16) :
    ResultOk ⟨.execute, completion st q⟩ := by
  refine ⟨fun hst => if_neg hst, fun _ v hv => ?_⟩
  simp only [completion, Option.ite_none_right_eq_some, Option.some.injEq] at hv
  exact ⟨q.respPayload, hv.2.symm, h⟩

theorem resultOk_immediate {r : Result} (h : r.status ≠ .ok → r.value = none) : ResultOk ⟨.immediate, r⟩ :=
  ⟨h, nofun⟩

/-- A record of legal things stays one where the thing a step appends is legal. -/
theorem forall_mem_of_eq_concat {α : Type} {P : α → Prop} {xs ys : List α} {y : α} (h : ys = xs ++ [y])
    (hx : ∀ a ∈ xs, P a) (hy : P y) : ∀ a ∈ ys, P a := by
  rw [h]
  exact List.forall_mem_append.mpr ⟨hx, List.forall_mem_singleton.mpr hy⟩

section
variable {s t : State}

theorem Move.seqInv (hm : Move s t) (h : SeqInv s.seq) : SeqInv t.seq := by
  cases hm with
  | @sequencer d n _ =>
    rcases seqStep_taken s d n with ⟨-, e⟩ | ⟨hb, hm⟩
    · rw [e]
      exact h
    · exact hm.seqInv h hb
  | link | answer => exact h
  | reset => exact seqInv_reset
  | @turnedAway cmd ret p n =>
    exact seqInv_of_bounds (q := (latch cmd ret s).seq) (Nat.zero_le _) (by simp [latch])
      (by simp [ReceiveBounds, latch]) (by simp [latch]) _
  | @accepted cmd ret p n _ hlen =>
    exact seqInv_busy (q := { (latch cmd ret s).seq with txFrame := build cmd p, attempt := 1 }) (by simp)
      ⟨rfl, p, hlen, rfl⟩ rfl ⟨rfl, rfl, rfl⟩
  | aborted _ hb => exact seqInv_ended h hb h.payload _

theorem Move.results_ok (hm : Move s t) (h : SeqInv s.seq) (hr : ∀ d ∈ s.results, ResultOk d) :
    ∀ d ∈ t.results, ResultOk d := by
  have ht := hm.seqInv h
  cases hm with
  | @sequencer d n _ =>
    rcases seqStep_taken s d n with ⟨-, e⟩ | ⟨-, hm⟩
    · rw [e]
      exact hr
    · rcases hm.goesOn_or_ends with ⟨-, hres, -⟩ | ⟨-, st, -, -, hres⟩
      · rw [hres]
        exact hr
      · exact forall_mem_of_eq_concat hres hr (resultOk_completion ht.payload)
  | link | reset | accepted => exact hr
  | answer hval => exact forall_mem_of_eq_concat rfl hr (resultOk_immediate hval)
  | turnedAway => exact forall_mem_of_eq_concat rfl hr (resultOk_completion ht.payload)
  | aborted =>
    have hended := forall_mem_of_eq_concat rfl hr (resultOk_completion (st := .aborted) ht.payload)
    exact forall_mem_of_eq_concat rfl hended (resultOk_immediate fun hne => absurd rfl hne)

theorem Move.blockInv (hm : Move s t) (h : BlockInv s) : BlockInv t where
  schema := by
    rw [hm.params_eq]
    exact h.schema
  seq := hm.seqInv h.seq
  results := hm.results_ok h.seq h.results
  link := by
    rcases hm.log with hlog | ⟨-, e, -, he, hlog⟩
    · rw [hlog]
      exact h.link
    · exact forall_mem_of_eq_concat hlog h.link (he h.seq.receive)

end

/-- Settles O57: each move keeps the registers legal, and what it appends to the records is legal. -/
theorem everyStepKeepsTheInvariant : Obligations.EveryStepKeepsTheInvariant := by
  unfold Obligations.EveryStepKeepsTheInvariant
  exact fun s t h hs => (step_move hs).blockInv h

/-- The schema at start passes the checks of R161 and R162, whatever the ROM held (log 1). -/
theorem schemaLegal_schema : schemaLegal Config.schema = true := by
  rw [Config.schema]
  split_ifs with h
  · exact h
  · decide

/-- Settles O56: the reset registers are those of an idle sequencer, and both records are empty. -/
theorem invariantHoldsAtReset : Obligations.InvariantHoldsAtReset := by
  unfold Obligations.InvariantHoldsAtReset
  exact ⟨schemaLegal_schema, seqInv_reset, nofun, nofun⟩

end Sys2Proof.Cert

/-! SUPPORT and proofs for the end of every EXECUTE (41_request_sequencer.md section 2, property (d)). -/

namespace Sys2Proof.Cert

open Sys2Proof.Machine

/-! ### What an EXECUTE has left -/

/-- The steps from this phase to the end of its attempt. -/
def phaseSteps : Phase → Nat
  | .idle => 0
  | .flush => 5
  | .send => 4
  | .rxHdr => 3
  | .rxBody => 2
  | .check => 1

/-- The link primitives from this phase to the end of its attempt. -/
def phaseLinks : Phase → Nat
  | .idle => 0
  | .flush => 4
  | .send => 3
  | .rxHdr => 2
  | .rxBody => 1
  | .check => 0

/-- The attempts that may follow the current one. -/
def attemptsAfter (q : Sequencer) : Nat := q.maxRetries.toNat + 1 - q.attempt.toNat

/-- The steps that an EXECUTE takes at most from here. -/
def stepsLeft (q : Sequencer) : Nat := 5 * attemptsAfter q + phaseSteps q.phase

/-- The link primitives that an EXECUTE issues at most from here. -/
def linksLeft (q : Sequencer) : Nat := 4 * attemptsAfter q + phaseLinks q.phase

/-- The link primitives of one step in this phase (R58). -/
def stepLinks (p : Phase) : Nat := if p = .check then 0 else 1

theorem stepLinks_le {p : Phase} (hp : p ≠ .idle) :
    1 ≤ phaseSteps p ∧ phaseSteps p ≤ 5 ∧ stepLinks p ≤ phaseLinks p ∧ phaseLinks p ≤ 4 := by
  cases p with
  | idle => exact absurd rfl hp
  | flush | send | rxHdr | rxBody | check => decide

section
variable {s t : State}

theorem SeqMove.exists_events (hm : SeqMove s t) :
    ∃ evs, t.link.log = s.link.log ++ evs ∧ evs.length ≤ stepLinks s.seq.phase := by
  rcases hm.log with ⟨-, hlog⟩ | ⟨e, he, -, hlog⟩
  · exact ⟨[], by rw [hlog, List.append_nil], Nat.zero_le _⟩
  · refine ⟨[e], hlog, ?_⟩
    have hcheck : s.seq.phase ≠ .check := by
      intro hp
      rw [primitiveOf, hp] at he
      exact he
    rw [stepLinks, if_neg hcheck]
    rfl

/-- A move that goes on uses up a step, and its link primitives. -/
theorem SeqMove.uses (hm : SeqMove s t) (h : SeqInv s.seq) (hb : s.seq.phase ≠ .idle)
    (hgo : t.seq.phase ≠ .idle) :
    stepsLeft t.seq + 1 ≤ stepsLeft s.seq ∧
      linksLeft t.seq + stepLinks s.seq.phase ≤ linksLeft s.seq := by
  cases hm with
  | @advance q l p w hp =>
    have hafter : attemptsAfter { q with phase := p } = attemptsAfter s.seq := by
      rw [attemptsAfter, attemptsAfter, w.attempt, w.maxRetries]
    have hphase : phaseSteps p + 1 ≤ phaseSteps s.seq.phase ∧
        phaseLinks p + stepLinks s.seq.phase ≤ phaseLinks s.seq.phase := by
      simp only [advances, List.mem_cons, Prod.mk.injEq, List.not_mem_nil, or_false] at hp
      rcases hp with ⟨hs, rfl⟩ | ⟨hs, rfl⟩ | ⟨hs, rfl⟩ | ⟨hs, rfl⟩ <;> rw [hs] <;> decide
    simp only [stepsLeft, linksLeft, hafter]
    omega
  | @again q l w hp ha =>
    obtain ⟨hsucc, hle⟩ := w.attempt_succ h ha
    obtain ⟨hsteps, -, hlinks, -⟩ := stepLinks_le hb
    have hattempt : q.attempt.toNat = s.seq.attempt.toNat := by rw [w.attempt]
    have hmax : q.maxRetries.toNat = s.seq.maxRetries.toNat := by rw [w.maxRetries]
    have hflush : phaseSteps .flush = 5 ∧ phaseLinks .flush = 4 := ⟨rfl, rfl⟩
    simp only [stepsLeft, linksLeft, attemptsAfter, hsucc, hflush]
    omega
  | exhausted | fail | accept => exact absurd rfl hgo

/-! ### Runs to the end -/

/-- Left to itself, the block ends the EXECUTE in progress within `k` steps and `n` link primitives, with one
result. -/
def EndsWithin (k n : Nat) (s : State) : Prop :=
  ∃ (j : Nat) (t : State) (evs : List LinkEvent) (r : Result),
    j ≤ k ∧ Host.Core.run Sys2Proof.core j s = .next t ∧ busy t = false ∧
    t.link.log = s.link.log ++ evs ∧ evs.length ≤ n ∧
    t.results = s.results ++ [⟨.execute, r⟩] ∧ t.seq.lastStatus = some r.status ∧ r.status ∈ endings

theorem EndsWithin.mono {k k' n n' : Nat} (h : EndsWithin k n s) (hk : k ≤ k') (hn : n ≤ n') :
    EndsWithin k' n' s := by
  obtain ⟨j, t, evs, r, hj, hrun, hidle, hlog, hlen, hrest⟩ := h
  exact ⟨j, t, evs, r, hj.trans hk, hrun, hidle, hlog, hlen.trans hn, hrest⟩

theorem endsWithin_of_ends {n : Nat} {evs : List LinkEvent} (hstep : step s = .next t)
    (hlog : t.link.log = s.link.log ++ evs) (hlen : evs.length ≤ n) (he : Ends s t) : EndsWithin 1 n s := by
  obtain ⟨hidle, st, hst, hlast, hres⟩ := he
  exact ⟨1, t, evs, completion st t.seq, le_rfl, run_succ_of_next 0 hstep, (busy_eq_false_iff t).mpr hidle, hlog,
    hlen, hres, hlast, hst⟩

theorem endsWithin_of_goesOn {k n m : Nat} {evs : List LinkEvent} (hstep : step s = .next t)
    (hlog : t.link.log = s.link.log ++ evs) (hlen : evs.length ≤ m) (hres : t.results = s.results)
    (ht : EndsWithin k n t) : EndsWithin (k + 1) (n + m) s := by
  obtain ⟨j, u, evs', r, hj, hrun, hidle, hlog', hlen', hres', hrest⟩ := ht
  refine ⟨j + 1, u, evs ++ evs', r, Nat.succ_le_succ hj, (run_succ_of_next j hstep).trans hrun, hidle, ?_, ?_, ?_,
    hrest⟩
  · rw [hlog', hlog, List.append_assoc]
  · rw [List.length_append]
    omega
  · rw [hres', hres]

/-- The pending inputs are link answers only. -/
def OnlyAnswers (s : State) : Prop := ∀ e ∈ s.inputs, ∃ d, e = Event.block d

theorem step_of_onlyAnswers (hin : OnlyAnswers s) (hb : s.seq.phase ≠ .idle) :
    ∃ d n, step s = .next (seqStep d (taken s n)) := by
  cases hs : s.inputs with
  | nil => exact ⟨_, _, by rw [step_of_nil_busy hs hb, taken_of_nil hs]⟩
  | cons e rest =>
    obtain ⟨d, rfl⟩ := hin e (hs ▸ List.mem_cons_self)
    exact ⟨d, _, by rw [step_of_block hs, taken_of_cons hs]⟩

theorem endsWithin_left (s : State) (h : SeqInv s.seq) (hb : s.seq.phase ≠ .idle) (hin : OnlyAnswers s) :
    EndsWithin (stepsLeft s.seq) (linksLeft s.seq) s := by
  induction hk : stepsLeft s.seq using Nat.strong_induction_on generalizing s with
  | _ k ih =>
    obtain ⟨d, n, hstep⟩ := step_of_onlyAnswers hin hb
    have hm : SeqMove (taken s n) (seqStep d (taken s n)) := seqStep_move (s := taken s n) d hb
    generalize seqStep d (taken s n) = t at hstep hm
    obtain ⟨evs, hlog, hlen⟩ := hm.exists_events
    obtain ⟨hsteps, -, hlinks, -⟩ := stepLinks_le hb
    rcases hm.goesOn_or_ends with ⟨hgo, hres, -⟩ | hends
    · obtain ⟨hless, hlinks⟩ := hm.uses h hb hgo
      have hin' : OnlyAnswers t := fun e he => by
        rw [hm.keeps.2.1] at he
        exact hin e (List.mem_of_mem_tail he)
      have ht := ih _ (hk ▸ hless) t (hm.seqInv h hb) hgo hin' rfl
      exact (endsWithin_of_goesOn hstep hlog hlen hres ht).mono (hk ▸ hless) hlinks
    · refine (endsWithin_of_ends hstep hlog hlen hends).mono ?_ ?_
      · rw [← hk, stepsLeft]
        omega
      · rw [linksLeft, taken_seq]
        omega

end

/-- Settles O58, by induction on the steps left: every move uses one up or ends the EXECUTE. -/
theorem everyExecuteEnds : Obligations.EveryExecuteEnds := by
  unfold Obligations.EveryExecuteEnds
  intro s h hb hin
  rw [busy_eq_true_iff] at hb
  have hle := h.seq.attempt_le
  obtain ⟨-, hsteps, -, hlinks⟩ := stepLinks_le hb
  refine (endsWithin_left s h.seq hb hin).mono ?_ ?_
  · rw [stepsLeft, attemptsAfter]
    omega
  · rw [linksLeft, attemptsAfter]
    omega

end Sys2Proof.Cert

/-! SUPPORT and proofs for pure operations beside the sequencer (20_memory.md section 4). -/

namespace Sys2Proof.Cert

open Sys2Proof.Machine

/-! ### The sequencer does not read the results -/

/-- The state with these results delivered so far. -/
def withResults (rs : List Delivery) (s : State) : State := { s with results := rs }

/-- `f` at `s` appends the same results whatever was delivered before, and does the same else. -/
def AppendsResults (f : State → State) (s : State) : Prop :=
  ∃ ds, ∀ rs, f (withResults rs s) = withResults (rs ++ ds) (f s)

theorem attemptStart_appendsResults (s : State) : AppendsResults attemptStart s := by
  by_cases ha : s.seq.attempt.toNat = s.seq.maxRetries.toNat + 1
  · refine ⟨[⟨.execute, completion .retriesExhausted s.seq⟩], fun rs => ?_⟩
    rw [attemptStart_exhausted ha, attemptStart_exhausted (s := withResults rs s) ha]
    rfl
  · refine ⟨[], fun rs => ?_⟩
    rw [attemptStart_next ha, attemptStart_next (s := withResults rs s) ha, List.append_nil]
    rfl

section
variable (d : LinkDraw) (s : State)

theorem flushStep_appendsResults : AppendsResults (flushStep d) s := by
  cases hf : linkFails d s.link with
  | true =>
    refine ⟨[⟨.execute, ⟨.transportFailure, none⟩⟩], fun rs => ?_⟩
    rw [flushStep_of_linkFails hf, flushStep_of_linkFails (s := withResults rs s) hf]
    rfl
  | false =>
    refine ⟨[], fun rs => ?_⟩
    rw [flushStep_of_not_linkFails hf, flushStep_of_not_linkFails (s := withResults rs s) hf, List.append_nil]
    rfl

theorem sendStep_appendsResults : AppendsResults (sendStep d) s := by
  cases hf : linkFails d s.link with
  | true =>
    refine ⟨[⟨.execute, ⟨.transportFailure, none⟩⟩], fun rs => ?_⟩
    rw [sendStep_of_linkFails hf, sendStep_of_linkFails (s := withResults rs s) hf]
    rfl
  | false =>
    refine ⟨[], fun rs => ?_⟩
    rw [sendStep_of_not_linkFails hf, sendStep_of_not_linkFails (s := withResults rs s) hf, List.append_nil]
    rfl

theorem rxHdrStep_appendsResults : AppendsResults (rxHdrStep d) s := by
  cases e : linkRead 2 d s.link with | mk a l =>
  cases a with
  | xportErr =>
    refine ⟨[⟨.execute, ⟨.transportFailure, none⟩⟩], fun rs => ?_⟩
    rw [rxHdrStep_of_xportErr e, rxHdrStep_of_xportErr (s := withResults rs s) e]
    rfl
  | ok h =>
    by_cases hl : h.length < 2
    · obtain ⟨ds, hds⟩ := attemptStart_appendsResults
        { s with link := l, seq := { s.seq with rxHdr := h, lastFail := .shortHeader } }
      refine ⟨ds, fun rs => ?_⟩
      rw [rxHdrStep_of_short e hl, rxHdrStep_of_short (s := withResults rs s) e hl]
      exact hds rs
    · refine ⟨[], fun rs => ?_⟩
      rw [rxHdrStep_of_whole e (not_lt.mp hl), rxHdrStep_of_whole (s := withResults rs s) e (not_lt.mp hl),
        List.append_nil]
      rfl

theorem rxBodyStep_appendsResults : AppendsResults (rxBodyStep d) s := by
  cases e : linkRead s.seq.bodyLen.toNat d s.link with | mk a l =>
  cases a with
  | xportErr =>
    refine ⟨[⟨.execute, ⟨.transportFailure, none⟩⟩], fun rs => ?_⟩
    rw [rxBodyStep_of_xportErr e, rxBodyStep_of_xportErr (s := withResults rs s) e]
    rfl
  | ok b =>
    by_cases hl : b.length < s.seq.bodyLen.toNat
    · obtain ⟨ds, hds⟩ := attemptStart_appendsResults
        { s with link := l, seq := { s.seq with rxBody := b, lastFail := .shortBody } }
      refine ⟨ds, fun rs => ?_⟩
      rw [rxBodyStep_of_short e hl, rxBodyStep_of_short (s := withResults rs s) e hl]
      exact hds rs
    · refine ⟨[], fun rs => ?_⟩
      rw [rxBodyStep_of_whole e (not_lt.mp hl), rxBodyStep_of_whole (s := withResults rs s) e (not_lt.mp hl),
        List.append_nil]
      rfl

theorem checkStep_appendsResults : AppendsResults checkStep s := by
  by_cases hv : validate (rxFrame s) (some s.seq.reqCmd) = true
  · refine ⟨[⟨.execute, ⟨.ok, some (.bytes (payloadOf (rxFrame s)))⟩⟩], fun rs => ?_⟩
    rw [checkStep_of_valid hv, checkStep_of_valid (s := withResults rs s) hv]
    rfl
  · obtain ⟨ds, hds⟩ := attemptStart_appendsResults { s with seq := { s.seq with lastFail := .invalidFrame } }
    refine ⟨ds, fun rs => ?_⟩
    rw [checkStep_of_not_valid hv, checkStep_of_not_valid (s := withResults rs s) hv]
    exact hds rs

end

theorem appendsResults_of_eq {f g : State → State} {s : State}
    (h : ∀ rs, f (withResults rs s) = g (withResults rs s)) (hg : AppendsResults g s) : AppendsResults f s := by
  obtain ⟨ds, hds⟩ := hg
  have hs : f s = g s := h s.results
  exact ⟨ds, fun rs => by rw [h rs, hds rs, hs]⟩

theorem seqStep_appendsResults (d : LinkDraw) (s : State) : AppendsResults (seqStep d) s := by
  cases hp : s.seq.phase with
  | idle =>
    refine ⟨[], fun rs => ?_⟩
    rw [seqStep_of_idle hp, seqStep_of_idle (s := withResults rs s) hp, List.append_nil]
  | flush => exact appendsResults_of_eq (fun _ => seqStep_of_flush hp) (flushStep_appendsResults d s)
  | send => exact appendsResults_of_eq (fun _ => seqStep_of_send hp) (sendStep_appendsResults d s)
  | rxHdr => exact appendsResults_of_eq (fun _ => seqStep_of_rxHdr hp) (rxHdrStep_appendsResults d s)
  | rxBody => exact appendsResults_of_eq (fun _ => seqStep_of_rxBody hp) (rxBodyStep_appendsResults d s)
  | check => exact appendsResults_of_eq (fun _ => seqStep_of_check hp) (checkStep_appendsResults s)

theorem seqStep_params (d : LinkDraw) (s : State) : (seqStep d s).params = s.params := by
  by_cases hp : s.seq.phase = .idle
  · rw [seqStep_of_idle hp]
  · exact (seqStep_move d hp).keeps.1

theorem deliver_eq_withResults (p : Port) (r : Result) (s : State) :
    deliver p r s = withResults (s.results ++ [⟨p, r⟩]) s := rfl

/-- Settles O20: the operation's result depends on the parameters, which the sequencer keeps, and the
sequencer's step does not depend on the results. -/
theorem pureOperationsCommuteWithTheSequencer : Obligations.PureOperationsCommuteWithTheSequencer := by
  unfold Obligations.PureOperationsCommuteWithTheSequencer
  intro i d s t u hp ht hu
  obtain ⟨ds, hds⟩ := seqStep_appendsResults d s
  have hres : (seqStep d s).results = s.results ++ ds := congrArg State.results (hds s.results)
  rw [deliver_of_exec_pure hp ht, deliver_of_exec_pure hp hu, seqStep_params, deliver_eq_withResults, hds,
    deliver_eq_withResults, hres]
  refine ⟨rfl, rfl, rfl, rfl, ?_⟩
  change (s.results ++ [_] ++ ds).Perm (s.results ++ ds ++ [_])
  rw [List.append_assoc, List.append_assoc]
  exact List.perm_append_comm.append_left s.results

end Sys2Proof.Cert
